-- ==== Sys2Proof/Word.lean ====
section
/-! DEFINITION. The one data width of the block (00_scope.md rule R9). -/

namespace Sys2Proof

/-- An unsigned 8-bit value: every wire byte, state byte and operand byte (rules R9 and R10). `+` on it is the
spec's `+₈`, addition mod 256. -/
abbrev Byte := BitVec 8

end Sys2Proof
end

