-- ==== Sys2Proof/Config.lean ====
section
/-! DEFINITION. The configuration record of 00_scope.md rule R7, its well-formedness (rule R8), and the free values. -/

namespace Sys2Proof

/-- `P_BAD_ESCAPE` (rules R7 and R106): what a bad escape pair does. -/
inductive BadEscapePolicy where
  /-- The frame in progress is discarded: the spec's value for this hardware. -/
  | discard
  /-- The second byte is taken as the logical byte. -/
  | literal
  deriving DecidableEq, Repr

/-- The parameters of rule R7. They are static: no operation changes one (10_state.md rule R32). -/
structure Config where
  /-- `HEADER`, the header sentinel. -/
  header : Byte
  /-- `ESC`, the escape byte. -/
  esc : Byte
  /-- `SUB`, the second byte of the pair that stands for `HEADER`. -/
  sub : Byte
  /-- `TAG_CTRL`, the channel tag of a control-frame byte. -/
  tagCtrl : Byte
  /-- `TAG_PT`, the channel tag of a raw peripheral byte. -/
  tagPt : Byte
  /-- `MAX_PAYLOAD`, the largest payload count ENCODE accepts. -/
  maxPayload : Nat
  /-- `BUF_CAP`, the number of entries of the decode buffer. -/
  bufCap : Nat
  /-- `P_BAD_ESCAPE`. -/
  badEscape : BadEscapePolicy
  /-- `W_ENC_N`, the width in bits of ENCODE's payload count at the request interface. -/
  wEncN : Nat
  deriving DecidableEq, Repr

/-- FREE VALUE. How far `W_ENC_N` exceeds the 9 bits that rule R7 requires: the spec leaves the width `OPEN`
(92_eei_decisions.md D10). notes/assumptions/2.md -/
opaque Config.encCountExtra : Nat

/-- FREE VALUE. What a decode-buffer entry that nothing has written holds: `any value` (70_reset_and_hazards.md rule
R180, 93_implementation_defined.md I2). notes/assumptions/1.md -/
opaque Config.bufContents : Nat → Byte

/-- The document's values (the default column of rule R7); `W_ENC_N` stays open above its bound of 9. -/
def Config.defaults : Config where
  header := 0xF1#8
  esc := 0x1A#8
  sub := 0x20#8
  tagCtrl := 0x00#8
  tagPt := 0x01#8
  maxPayload := 253
  bufCap := 256
  badEscape := .discard
  wEncN := Config.encCountExtra + 9

/-- Well-formedness of a configuration: rule R8 (a) to (f), and the bound that rule R7 sets on `W_ENC_N`. -/
abbrev Config.wf (c : Config) : Prop :=
  c.header ≠ c.esc ∧ c.sub ≠ c.header ∧ c.sub ≠ c.esc ∧ c.tagCtrl ≠ c.tagPt ∧
    c.maxPayload + 2 ≤ 255 ∧ c.maxPayload + 2 ≤ c.bufCap ∧ 9 ≤ c.wEncN

end Sys2Proof
end

