-- ==== Sys2Proof/Syntax.lean ====
section
/-! DEFINITION. The rows of spec/opcode_table.json as one inductive, and the raw transactions they are decoded from. -/

namespace Sys2Proof

/-- The framing phase `S.phase` (10_state.md rules R20 and R21). -/
inductive Phase where
  /-- No frame is in progress. -/
  | awaitHeader
  /-- A header has been seen; the next logical byte is the declared length. -/
  | awaitLength
  /-- The declared length is known; body bytes, then the checksum byte. -/
  | body
  deriving DecidableEq, Repr

/-- The reassembler's position `(S.phase, S.esc, S.idx)`, which plays the role of a program counter (rule R27). -/
structure Position where
  phase : Phase
  esc : Bool
  idx : Nat
  deriving DecidableEq, Repr

/-- A header has been seen and its frame has not ended: `S.phase ∈ {AwaitLength, Body}`. -/
def Position.inFrame (p : Position) : Bool := p.phase != .awaitHeader

/-- One constructor per row of spec/opcode_table.json: the four operations (30_encoding.md rule R66), the forms an inbound
wire byte or escape pair takes (rule R68), and the outbound units (rules R64 and R65). -/
inductive Instr where
  /-- `FEED b`: one inbound wire byte (rule R100). -/
  | feed (b : Byte)
  /-- `ENCODE cmd, dtype, payload`: serialize one frame (rule R130). The payload count `n` is `payload.length`. -/
  | encode (cmd dtype : Byte) (payload : List Byte)
  /-- `PASSTHRU b`: forward one peripheral byte (rule R137). -/
  | passthru (b : Byte)
  /-- `RESET` (rule R181). -/
  | reset
  /-- IN.HEADER: the wire byte `HEADER` (rule R102). -/
  | inHeader
  /-- IN.ESC_PREFIX: the wire byte `ESC` that opens a pair (rule R103). -/
  | inEscPrefix
  /-- IN.ESC_SUB: the escape pair `ESC SUB` (rule R104). -/
  | inEscSub
  /-- IN.ESC_ESC: the escape pair `ESC ESC` (rule R105). -/
  | inEscEsc
  /-- IN.ESC_HEADER: `ESC` and then `HEADER`, which is no pair (rule R102). -/
  | inEscHeader
  /-- IN.ESC_BAD: the pair `ESC x` with `x` not in `SUB`, `ESC`, `HEADER` (rule R106). -/
  | inEscBad (x : Byte)
  /-- IN.LITERAL: a wire byte that is a logical byte by itself (rule R107). -/
  | inLiteral (b : Byte)
  /-- IN.UNSYNCED: a wire byte other than `HEADER` while no frame is in progress (rule R101). -/
  | inUnsynced (b : Byte)
  /-- OUT.UNIT_CTRL: the unit `TAG_CTRL:data`, the internal `MuxCtrl` (rule R135). -/
  | outUnitCtrl (data : Byte)
  /-- OUT.UNIT_PT: the unit `TAG_PT:data`, the internal `MuxPt` (rule R136). -/
  | outUnitPt (data : Byte)
  /-- OUT.UNIT_RESERVED: a unit with a tag that is neither (rule R65). -/
  | outUnitReserved (tag data : Byte)
  deriving DecidableEq, Repr

/-- One transaction as it stands at an interface, before it is decoded. -/
inductive Raw where
  /-- A request word `op[9:8] : operand[7:0]` (rule R66). -/
  | word (w : BitVec 10)
  /-- A request record `(op, cmd, dtype, n, payload)` (rule R66). -/
  | record (op : BitVec 2) (cmd dtype : Byte) (n : Nat) (payload : List Byte)
  /-- Wire bytes at the inbound byte input, first byte first: the `FEED b1 b2 ...` of rule R67. -/
  | inbound (bytes : List Byte)
  /-- One outbound unit `[tag][data]` of the channel multiplexer (rule R64). It is INTERNAL, and a step refuses one that the
  environment issues (42_outbound_serializer.md rule R135, 60_exceptions.md rule R170). notes/assumptions/7.md -/
  | unit (tag data : Byte)
  deriving DecidableEq, Repr

/-- One entry of the environment's schedule. -/
inductive Slot where
  /-- A transaction issued after every earlier one has completed. -/
  | one (r : Raw)
  /-- `b` is issued while `a` is still in progress (70_reset_and_hazards.md rules R184 and R186). -/
  | overlap (a b : Raw)
  deriving DecidableEq, Repr

end Sys2Proof
end

