-- ==== Sys2Proof/WellFormed.lean ====
section
/-! DEFINITION. Which instructions an encoding exists for, at a position of the reassembler. -/

namespace Sys2Proof

/-- `i` has an encoding that a decoder at position `pos` reads as `i`. The operand conditions are the `fields` of its row of
spec/opcode_table.json; the conditions on the position are the row's `format` and rule R68. An ENCODE's payload count must be
representable in `W_ENC_N` bits (rules R7 and R130). -/
def wellFormed (cfg : Config) (pos : Position) : Instr → Bool
  | .feed _ => true
  | .encode _ _ payload => decide (payload.length < 2 ^ cfg.wEncN)
  | .passthru _ => true
  | .reset => true
  | .inHeader => true
  | .inEscPrefix => pos.inFrame && !pos.esc
  | .inEscSub => pos.inFrame
  | .inEscEsc => pos.inFrame
  | .inEscHeader => pos.inFrame && !pos.esc
  | .inEscBad x => pos.inFrame && x != cfg.sub && x != cfg.esc && x != cfg.header
  | .inLiteral b => pos.inFrame && !pos.esc && b != cfg.header && b != cfg.esc
  | .inUnsynced b => !pos.inFrame && b != cfg.header
  | .outUnitCtrl _ => true
  | .outUnitPt _ => true
  | .outUnitReserved tag _ => tag != cfg.tagCtrl && tag != cfg.tagPt

end Sys2Proof
end

