-- ==== Sys2Proof/Decode.lean ====
section
/-! DEFINITION. The decoder of the three encoding spaces (request words and records, inbound wire bytes, outbound units),
then the encoder written from the same tables. -/

namespace Sys2Proof

/-- Why a raw transaction is no request of the block. -/
inductive DecodeError where
  /-- A RESET word with a non-zero operand, `0x301` to `0x3FF` (rule R66, 93_implementation_defined.md I14). -/
  | resetOperand (operand : Byte)
  /-- A request word with op 1: an ENCODE request is a record, not a word (rule R66). -/
  | encodeWord
  /-- A request record whose op is not ENCODE's (rule R66). -/
  | recordOp (op : BitVec 2)
  /-- An ENCODE record whose `n` is not the number of its payload bytes (rule R66). -/
  | payloadCount (n : Nat)
  /-- An inbound transaction that carries no byte. -/
  | emptyBurst
  deriving DecidableEq, Repr

/-- The `op` field, bits [9:8], of a request word (rule R66). -/
def requestOp (w : BitVec 10) : BitVec 2 := w.extractLsb' 8 2

/-- The `operand` field, bits [7:0], of a request word (rule R66). -/
def requestOperand (w : BitVec 10) : Byte := w.extractLsb' 0 8

/-- The request word `op[9:8] : operand[7:0]` (rule R66). -/
def requestWord (op : BitVec 2) (operand : Byte) : BitVec 10 := op ++ operand

/-- A request word: the single-byte operations and RESET (rule R66). -/
def decodeWord (w : BitVec 10) : Except DecodeError Instr :=
  if requestOp w = 0#2 then .ok (.feed (requestOperand w))
  else if requestOp w = 1#2 then .error .encodeWord
  else if requestOp w = 2#2 then .ok (.passthru (requestOperand w))
  else if requestOperand w = 0#8 then .ok .reset
  else .error (.resetOperand (requestOperand w))

/-- A request record: ENCODE (rule R66). Every natural `n` is accepted (92_eei_decisions.md D10). -/
def decodeRecord (op : BitVec 2) (cmd dtype : Byte) (n : Nat) (payload : List Byte) : Except DecodeError Instr :=
  if op = 1#2 then
    if n = payload.length then .ok (.encode cmd dtype payload) else .error (.payloadCount n)
  else .error (.recordOp op)

/-- The row that the second byte `x` of an escape pair selects (rule R68 steps 1 and 4, rule R70 (a)). -/
def pairToken (cfg : Config) (x : Byte) : Instr :=
  if x = cfg.header then .inEscHeader
  else if x = cfg.sub then .inEscSub
  else if x = cfg.esc then .inEscEsc
  else .inEscBad x

/-- The first row of a run of inbound wire bytes, and the bytes after it: rule R68's classification against the position, in
its order of precedence, and rule R69's pairs. A lone `ESC` is the row IN.ESC_PREFIX; a byte that comes while an escape is
pending completes the pair that the earlier `ESC` opened. -/
def decodeInbound (cfg : Config) (pos : Position) : List Byte → Except DecodeError (Instr × List Byte)
  | [] => .error .emptyBurst
  | b :: bs =>
    if b = cfg.header then .ok (.inHeader, bs)
    else if pos.phase = .awaitHeader then .ok (.inUnsynced b, bs)
    else if pos.esc = true then .ok (pairToken cfg b, bs)
    else if b = cfg.esc then
      match bs with
      | [] => .ok (.inEscPrefix, [])
      | x :: xs => .ok (pairToken cfg x, xs)
    else .ok (.inLiteral b, bs)

/-- An outbound unit `tag:data` (rules R64 and R65). -/
def decodeUnit (cfg : Config) (tag data : Byte) : Instr :=
  if tag = cfg.tagCtrl then .outUnitCtrl data
  else if tag = cfg.tagPt then .outUnitPt data
  else .outUnitReserved tag data

/-- What is left of a burst of inbound bytes after its first row. -/
def leftover : List Byte → Option Raw
  | [] => none
  | b :: bs => some (.inbound (b :: bs))

/-- The decoder: the instruction a raw transaction begins with, and what is left of the transaction after it. -/
def decode (cfg : Config) (pos : Position) : Raw → Except DecodeError (Instr × Option Raw)
  | .word w => (decodeWord w).map (·, none)
  | .record op cmd dtype n payload => (decodeRecord op cmd dtype n payload).map (·, none)
  | .inbound bytes => (decodeInbound cfg pos bytes).map fun p => (p.1, leftover p.2)
  | .unit tag data => .ok (decodeUnit cfg tag data, none)

/-- The wire bytes of the escape pair `ESC x` that are still to come at a position: the whole pair, or its second byte where
the `ESC` has been taken already. -/
def pairBytes (cfg : Config) (pos : Position) (x : Byte) : List Byte :=
  if pos.inFrame && pos.esc then [x] else [cfg.esc, x]

/-- The encoder: the raw transaction of an instruction, from the same tables (rules R62, R64, R66). -/
def encode (cfg : Config) (pos : Position) : Instr → Raw
  | .feed b => .word (requestWord 0#2 b)
  | .encode cmd dtype payload => .record 1#2 cmd dtype payload.length payload
  | .passthru b => .word (requestWord 2#2 b)
  | .reset => .word (requestWord 3#2 0#8)
  | .inHeader => .inbound [cfg.header]
  | .inEscPrefix => .inbound [cfg.esc]
  | .inEscSub => .inbound (pairBytes cfg pos cfg.sub)
  | .inEscEsc => .inbound (pairBytes cfg pos cfg.esc)
  | .inEscHeader => .inbound (pairBytes cfg pos cfg.header)
  | .inEscBad x => .inbound (pairBytes cfg pos x)
  | .inLiteral b => .inbound [b]
  | .inUnsynced b => .inbound [b]
  | .outUnitCtrl data => .unit cfg.tagCtrl data
  | .outUnitPt data => .unit cfg.tagPt data
  | .outUnitReserved tag data => .unit tag data

/-- The position right after a header byte: the one the in-frame rows of the opcode table are decoded at. -/
def tablePosition : Position := ⟨.awaitLength, false, 0⟩

/-- A word of spec/opcode_table.json as a raw transaction. Words of 8 bits are inbound wire bytes. The table's 16-bit rows
share words: `1A:xx` is taken as an inbound pair, `0x000` to `0x3FF` as a request word (an ENCODE's record operands `dtype`,
`n` and `payload` are zero and its operand byte is `cmd`), any other as an outbound unit `tag:data`. Anything wider is no
transaction. notes/assumptions/5.md -/
def tableRaw (cfg : Config) (nbits w : Nat) : Raw :=
  let hi := w / 256
  let lo := BitVec.ofNat 8 (w % 256)
  if 256 ≤ hi ∨ 16 < nbits then .inbound []
  else if nbits ≤ 8 then if hi = 0 then .inbound [lo] else .inbound []
  else if hi = cfg.esc.toNat then .inbound [cfg.esc, lo]
  else if hi = 1 then .record 1#2 lo 0#8 0 []
  else if hi < 4 then .word (requestWord (BitVec.ofNat 2 hi) lo)
  else .unit (BitVec.ofNat 8 hi) lo

/-- The instruction the decoder reads from a word of spec/opcode_table.json, under the default parameters. -/
def decodeTableWord (nbits w : Nat) : Option Instr :=
  match decode Config.defaults tablePosition (tableRaw Config.defaults nbits w) with
  | .ok (i, none) => some i
  | _ => none

end Sys2Proof
end

