-- ==== Sys2Proof/Machine/State.lean ====
section
/-! DEFINITION. The machine's state as plain data, its reset, and the reasons a step can stop. -/

namespace Sys2Proof.Machine

/-- Why the machine stops with a fault. -/
inductive Fault where
  /-- The delivery of a frame reads a decode-buffer entry at or above `BUF_CAP`, an address that does not exist (20_memory.md
  rule R40). Raised by `bufRead`, in FEED and the inbound rows. Safe: it stops, and no state that keeps `S.idx ≤ BUF_CAP`
  and `S.idx ≤ S.len` (10_state.md rules R20 and R25) raises it. -/
  | bufferIndex (i : Nat)
  deriving DecidableEq, Repr

/-- Why the machine refuses to go on. -/
inductive Refusal where
  /-- No meaning for the instruction yet. Raised by exec's arms. Safe: it stops. -/
  | notModelled (mnemonic : String)
  /-- The configuration breaks 00_scope.md rule R8. Raised by a step. Safe: the rule asks for it. -/
  | badConfig
  /-- The transaction is no request of the block (30_encoding.md rule R66). Raised by a step. Safe: it stops. -/
  | undecodable (e : DecodeError)
  /-- Two FEEDs overlap, or a FEED and a RESET (70_reset_and_hazards.md rule R184). Raised by a step. Safe: the rule asks
  for it. -/
  | overlap
  /-- A caller issued a unit of the channel multiplexer, which is internal to ENCODE and PASSTHRU (42_outbound_serializer.md rule
  R135, 60_exceptions.md rule R170, 92_eei_decisions.md D9). Raised by a step. Safe: it stops, and the block has no such
  operation. notes/assumptions/7.md -/
  | internalUnit
  /-- An outbound unit whose tag is reserved (30_encoding.md rule R65, 93_implementation_defined.md I5). Raised by
  OUT.UNIT_RESERVED. Safe: the block never emits one. -/
  | reservedTag (tag : Byte)
  deriving DecidableEq, Repr

/-- The decode buffer `BUF` (20_memory.md rule R40) as the entries that have been written, by strictly rising index. An
unlisted entry holds no written value. -/
abbrev Memory := List Host.Cell

/-- The canonical form: indices strictly rising. (No entry can equal what an unlisted index holds, since that is no written
value at all.) -/
abbrev Memory.wf (m : Memory) : Prop := m.Pairwise (fun a b => a.1 < b.1)

/-- The decoder state record `S` and its buffer (10_state.md rule R20). -/
structure Decoder where
  /-- `S.phase` (rule R21). -/
  phase : Phase
  /-- `S.esc`, the escape-pending flag (rule R22). -/
  esc : Bool
  /-- `S.csum`, the checksum accumulator (rule R23). -/
  csum : Byte
  /-- `S.len`, the declared length (rule R24). -/
  len : Byte
  /-- `S.idx`, the number of body bytes stored (rule R25). -/
  idx : Nat
  /-- `BUF` (rule R26). -/
  buf : Memory
  deriving DecidableEq, Repr

/-- A decoded frame `(len, bytes)` (10_state.md rules R30 and R31). -/
structure Frame where
  len : Byte
  bytes : List Byte
  deriving DecidableEq, Repr

/-- `dec_event` (60_exceptions.md rule R161); code 7 is reserved and no constructor stands for it. -/
inductive DecEvent where
  | none
  | frame
  | unsyncedByte
  | checksumMismatch
  | badEscape
  | bufferOverflow
  | resync
  deriving DecidableEq, Repr

/-- `enc_resp` (60_exceptions.md rule R162). -/
inductive EncResp where
  | ok
  | payloadTooLarge
  deriving DecidableEq, Repr

/-- The outputs of one operation (10_state.md rule R30). -/
structure Outputs where
  /-- The decoded frame, or absent. -/
  frame : Option Frame
  /-- The decoder event. -/
  event : DecEvent
  /-- The encode response; absent for every operation but ENCODE (rule R162). -/
  resp : Option EncResp
  deriving DecidableEq, Repr

/-- The outputs an operation leaves unset take their idle values (00_scope.md rule R12). -/
def Outputs.idle : Outputs := ⟨.none, .none, .none⟩

/-- The outputs of a FEED that signals `ev` and delivers nothing. -/
def Outputs.signal (ev : DecEvent) : Outputs := ⟨.none, ev, .none⟩

/-- The outputs of a FEED that delivers `f` (rule R110). -/
def Outputs.deliver (f : Frame) : Outputs := ⟨some f, .frame, .none⟩

/-- The outputs of an ENCODE that answers `r` (rule R162). -/
def Outputs.respond (r : EncResp) : Outputs := ⟨.none, .none, some r⟩

/-- The whole machine. -/
structure State where
  /-- The static configuration (00_scope.md rule R7, 10_state.md rule R32). -/
  cfg : Config
  /-- The decoder state record (rule R20). -/
  dec : Decoder
  /-- `OUT`, the outbound byte stream, oldest byte first (rule R29). -/
  out : List Byte
  /-- The MODEL's own: the outputs of every operation so far, oldest first (rule R30). notes/assumptions/3.md -/
  results : List Outputs
  /-- The MODEL's own: the environment's schedule, next entry first (20_memory.md rule R52). notes/assumptions/4.md -/
  requests : List Slot
  deriving DecidableEq, Repr

/-- The decoder state after reset (70_reset_and_hazards.md rule R180). Nothing in `BUF` has been written. -/
def Decoder.reset : Decoder := ⟨.awaitHeader, false, 0#8, 0#8, 0, []⟩

/-- A block that has just been created with a configuration (rules R180 and R183). -/
def State.create (cfg : Config) : State := ⟨cfg, Decoder.reset, [], [], []⟩

/-- The machine right after reset (rule R180), with the default parameters of rule R7. -/
def State.reset : State := State.create Config.defaults

/-- What a fetch finds at the head of the schedule. -/
inductive Fetch where
  /-- Nothing has been issued. -/
  | idle
  /-- What was issued cannot be run. -/
  | refuse (r : Refusal)
  /-- The instruction to run, and the state with it taken from the schedule. -/
  | run (i : Instr) (s : State)
  deriving DecidableEq, Repr

end Sys2Proof.Machine
end

