-- ==== Sys2Proof/Machine/Operands.lean ====
section
/-! DEFINITION. The operand forms: logical and wire bytes, the frame layout, a frame's views, and the numeric codes of the
enumerations. -/

namespace Sys2Proof.Machine

/-- `Esc(v)`, the wire bytes of a logical byte (40_escape_checksum.md rule R80). -/
def escapeByte (cfg : Config) (v : Byte) : List Byte :=
  if v = cfg.header then [cfg.esc, cfg.sub]
  else if v = cfg.esc then [cfg.esc, cfg.esc]
  else [v]

/-- `EscAll(xs)` (rule R81). -/
def escapeAll (cfg : Config) : List Byte → List Byte
  | [] => []
  | v :: vs => escapeByte cfg v ++ escapeAll cfg vs

/-- `Unesc(x)`, the logical byte that the second byte of a pair gives; `none` is the rule's `Bad` (rule R82). -/
def unescapeByte (cfg : Config) (x : Byte) : Option Byte :=
  if x = cfg.sub then some cfg.header
  else if x = cfg.esc then some cfg.esc
  else none

/-- The decoding of rule R84: a byte other than `ESC` gives itself, an `ESC` applies `Unesc` to the byte after it. `none` is a
bad pair, or an `ESC` with nothing after it. -/
def unescapeAll (cfg : Config) : List Byte → Option (List Byte)
  | [] => some []
  | [w] => if w = cfg.esc then none else some [w]
  | w :: x :: rest =>
    if w = cfg.esc then
      match unescapeByte cfg x, unescapeAll cfg rest with
      | some v, some vs => some (v :: vs)
      | _, _ => none
    else
      match unescapeAll cfg (x :: rest) with
      | some vs => some (w :: vs)
      | none => none

/-- The declared length `L = (n + 2)[7:0]` of a frame with payload count `n` (42_outbound_serializer.md rule R132). -/
def declaredLength (n : Nat) : Byte := BitVec.ofNat 8 (n + 2)

/-- `command = bytes[0]`, where `len ≥ 2` (10_state.md rule R31). -/
def Frame.command (f : Frame) : Option Byte := if 2 ≤ f.len.toNat then f.bytes[0]? else none

/-- `dataType = bytes[1]`, where `len ≥ 2` (rule R31). -/
def Frame.dataType (f : Frame) : Option Byte := if 2 ≤ f.len.toNat then f.bytes[1]? else none

/-- `payload = bytes[2..len-1]`, where `len ≥ 2` (rule R31). -/
def Frame.payload (f : Frame) : Option (List Byte) := if 2 ≤ f.len.toNat then some (f.bytes.drop 2) else none

/-- The numeric code of `S.phase` (rule R20); it is never visible outside the block. -/
def phaseCode : Phase → BitVec 2
  | .awaitHeader => 0#2
  | .awaitLength => 1#2
  | .body => 2#2

/-- The 3-bit code of `dec_event` (60_exceptions.md rule R161). -/
def eventCode : DecEvent → BitVec 3
  | .none => 0#3
  | .frame => 1#3
  | .unsyncedByte => 2#3
  | .checksumMismatch => 3#3
  | .badEscape => 4#3
  | .bufferOverflow => 5#3
  | .resync => 6#3

/-- The event of a 3-bit code read from an implementation; the reserved code 7 is refused (93_implementation_defined.md I7). -/
def eventOfCode (c : BitVec 3) : Option DecEvent :=
  if c = 0#3 then some .none
  else if c = 1#3 then some .frame
  else if c = 2#3 then some .unsyncedByte
  else if c = 3#3 then some .checksumMismatch
  else if c = 4#3 then some .badEscape
  else if c = 5#3 then some .bufferOverflow
  else if c = 6#3 then some .resync
  else none

/-- The 1-bit code of `enc_resp` (rule R162). -/
def respCode : EncResp → BitVec 1
  | .ok => 0#1
  | .payloadTooLarge => 1#1

end Sys2Proof.Machine
end

