-- ==== Sys2Proof/Machine/Flags.lean ====
section
/-! DEFINITION. The checksum and the escape-pending flag. -/

namespace Sys2Proof.Machine

/-- `Σ₈ xs`, the sum of a byte list mod 256 (00_scope.md rule R10). -/
def sumBytes : List Byte → Byte
  | [] => 0#8
  | b :: bs => b + sumBytes bs

/-- `Csum(c, d, p)`, over logical values (40_escape_checksum.md rule R85). -/
def frameChecksum (cfg : Config) (cmd dtype : Byte) (payload : List Byte) : Byte :=
  sumBytes ([cfg.header, declaredLength payload.length, cmd, dtype] ++ payload)

/-- The wire bytes of a frame, `HEADER ++ Esc(L) ++ Esc(cmd) ++ Esc(dtype) ++ … ++ Esc(s)` (rule R134, layout rule R60). -/
def frameBytes (cfg : Config) (cmd dtype : Byte) (payload : List Byte) : List Byte :=
  cfg.header :: escapeAll cfg
    ([declaredLength payload.length, cmd, dtype] ++ payload ++ [frameChecksum cfg cmd dtype payload])

/-- The accumulator after one more logical byte (rule R86). -/
def accumulate (csum v : Byte) : Byte := csum + v

/-- `ESC` while no escape is pending sets the flag and nothing else (41_inbound_reassembler.md rule R103). -/
def Decoder.setEsc (d : Decoder) : Decoder := { d with esc := true }

/-- The byte after an `ESC` clears the flag (rules R104, R105 and R106). -/
def Decoder.clearEsc (d : Decoder) : Decoder := { d with esc := false }

end Sys2Proof.Machine
end

