-- ==== Sys2Proof/Machine/Ops.lean ====
section
/-! DEFINITION. The named operations: the decode buffer, the decoder's error entry and its recovery, the placing of a logical
byte, one inbound wire byte, the outbound stream, the schedule. -/

namespace Sys2Proof.Machine

/-- The value written at index `i`, if one has been. -/
def bufLookup : Memory → Nat → Option Byte
  | [], _ => none
  | (a, v) :: m, i => if a = i then some v else bufLookup m i

/-- `MemWrite(i, 1, v)` (20_memory.md rule R41). Its caller checks the bound (41_inbound_reassembler.md rule R112). -/
def bufWrite : Memory → Nat → Byte → Memory
  | [], i, v => [(i, v)]
  | (a, w) :: m, i, v =>
    if i < a then (i, v) :: (a, w) :: m
    else if i = a then (i, v) :: m
    else (a, w) :: bufWrite m i v

/-- `MemRead(i, 1)` (rule R41). An entry that nothing has written reads as a free value (70_reset_and_hazards.md rule R180);
`none` is an index that does not exist. -/
def bufRead (cap : Nat) (m : Memory) (i : Nat) : Option Byte :=
  if i < cap then some ((bufLookup m i).getD (Config.bufContents i)) else none

/-- `MemRead` of the `n` entries from index `i` on, or the first index that does not exist. -/
def bufSlice (cap : Nat) (m : Memory) (i : Nat) : Nat → Except Nat (List Byte)
  | 0 => .ok []
  | n + 1 =>
    match bufRead cap m i with
    | none => .error i
    | some v =>
      match bufSlice cap m (i + 1) n with
      | .error j => .error j
      | .ok vs => .ok (v :: vs)

/-- What one step of the decoder gives: its new state and the outputs. -/
abbrev Decoded := Except Fault (Decoder × Outputs)

/-- TAKING A DECODER ERROR (60_exceptions.md rule R166): nothing is saved, the decoder returns to `AwaitHeader` with no escape
pending, and the event is signalled. -/
def Decoder.error (d : Decoder) (ev : DecEvent) : Decoder × Outputs :=
  ({ d with phase := .awaitHeader, esc := false }, .signal ev)

/-- THE RETURN FROM AN ERROR, and every other frame start: a `HEADER` byte (rule R167, 41_inbound_reassembler.md rule R102).
`S.len` and `BUF` are left as they are. -/
def Decoder.frameStart (cfg : Config) (d : Decoder) : Decoder × Outputs :=
  ({ d with phase := .awaitLength, csum := cfg.header, esc := false, idx := 0 },
    .signal (if d.phase = .awaitHeader then .none else .resync))

/-- The checksum byte `v` (rules R110 and R111). -/
def Decoder.check (cfg : Config) (d : Decoder) (v : Byte) : Decoded :=
  if v = d.csum then
    match bufSlice cfg.bufCap d.buf 0 d.len.toNat with
    | .error i => .error (.bufferIndex i)
    | .ok bytes => .ok ({ d with phase := .awaitHeader }, .deliver ⟨d.len, bytes⟩)
  else .ok (d.error .checksumMismatch)

/-- A logical byte `v`, taken as length, body or checksum by the phase and the index (rule R100 step 5, rules R108 to R112). -/
def Decoder.place (cfg : Config) (d : Decoder) (v : Byte) : Decoded :=
  match d.phase with
  | .awaitHeader => .ok (d, .signal .unsyncedByte)
  | .awaitLength => .ok ({ d with len := v, csum := accumulate d.csum v, idx := 0, phase := .body }, .idle)
  | .body =>
    if d.idx < d.len.toNat then
      if cfg.bufCap ≤ d.idx then .ok (d.error .bufferOverflow)
      else .ok ({ d with buf := bufWrite d.buf d.idx v, idx := d.idx + 1, csum := accumulate d.csum v }, .idle)
    else d.check cfg v

/-- The second byte `b` of an escape pair (rules R104, R105 and R106). -/
def Decoder.resolve (cfg : Config) (d : Decoder) (b : Byte) : Decoded :=
  match unescapeByte cfg b with
  | some v => d.clearEsc.place cfg v
  | none =>
    match cfg.badEscape with
    | .discard => .ok (d.clearEsc.error .badEscape)
    | .literal => d.clearEsc.place cfg b

/-- One inbound wire byte (rule R100), its cases in the order of 30_encoding.md rule R68. -/
def Decoder.feed (cfg : Config) (d : Decoder) (b : Byte) : Decoded :=
  if b = cfg.header then .ok (d.frameStart cfg)
  else if d.phase = .awaitHeader then .ok (d, .signal .unsyncedByte)
  else if d.esc = false ∧ b = cfg.esc then .ok (d.setEsc, .idle)
  else if d.esc = true then d.resolve cfg b
  else d.place cfg b

/-- The reassembler's position (10_state.md rule R27). -/
def State.position (s : State) : Position := ⟨s.dec.phase, s.dec.esc, s.dec.idx⟩

/-- The end of an operation: its outputs join the results (rule R30). -/
def State.finish (s : State) (o : Outputs) : State := { s with results := s.results ++ [o] }

/-- The state after a decoder step that gave `d` and `o`. -/
def State.decoded (s : State) (d : Decoder) (o : Outputs) : State :=
  { s with dec := d, results := s.results ++ [o] }

/-- FEED of one wire byte, on the machine. -/
def State.feedByte (s : State) (b : Byte) : Host.Outcome State Fault Refusal :=
  match s.dec.feed s.cfg b with
  | .error r => .fault r
  | .ok (d, o) => .next (s.decoded d o)

/-- FEEDs of wire bytes, one per byte in order (30_encoding.md rule R67). -/
def feedBytes : List Byte → State → Host.Outcome State Fault Refusal
  | [], s => .next s
  | b :: bs, s =>
    match s.feedByte b with
    | .next t => feedBytes bs t
    | .fault r => .fault r
    | .refused r => .refused r

/-- `Emit(b)` (00_scope.md rule R11). -/
def State.emit (s : State) (b : Byte) : State := { s with out := s.out ++ [b] }

/-- `MuxCtrl(w)` (42_outbound_serializer.md rule R135): the tag first (20_memory.md rule R44). -/
def State.muxCtrl (s : State) (w : Byte) : State := (s.emit s.cfg.tagCtrl).emit w

/-- `MuxPt(b)` (rule R136). -/
def State.muxPt (s : State) (b : Byte) : State := (s.emit s.cfg.tagPt).emit b

/-- `MuxCtrl` of each byte in order (rule R134). -/
def muxCtrlAll : List Byte → State → State
  | [], s => s
  | w :: ws, s => muxCtrlAll ws (s.muxCtrl w)

/-- A transaction that is a FEED, or a run of them. -/
def isFeed : Raw → Bool
  | .word w => requestOp w == 0#2
  | .inbound _ => true
  | _ => false

/-- A transaction that is a RESET. -/
def isReset : Raw → Bool
  | .word w => requestOp w == 3#2
  | _ => false

/-- The overlaps that have no meaning: two FEEDs, or a FEED and a RESET (70_reset_and_hazards.md rule R184). -/
def overlapConflict (a b : Raw) : Bool := isFeed a && (isFeed b || isReset b) || isReset a && isFeed b

/-- What was not consumed of a transaction goes back to the head of the schedule. -/
def State.requeue (s : State) : Option Raw → State
  | none => s
  | some r => { s with requests := .one r :: s.requests }

/-- The multiplexer's primitives `MuxCtrl` and `MuxPt`: parts of ENCODE and PASSTHRU, which no caller may issue (42_outbound_serializer.md
rule R135, 60_exceptions.md rule R170, 92_eei_decisions.md D9). -/
def isInternal : Instr → Bool
  | .outUnitCtrl _ | .outUnitPt _ => true
  | .feed _ | .encode _ _ _ | .passthru _ | .reset | .outUnitReserved _ _ => false
  | .inHeader | .inEscPrefix | .inEscSub | .inEscEsc | .inEscHeader | .inEscBad _ | .inLiteral _ | .inUnsynced _ => false

/-- The instruction that a transaction begins with, at the present position. The state changes only by operations (00_scope.md rule
R6), so a transaction that is a part of one is refused. -/
def State.fetchRaw (s : State) (r : Raw) : Fetch :=
  match decode s.cfg s.position r with
  | .error e => .refuse (.undecodable e)
  | .ok (i, more) => if isInternal i then .refuse .internalUnit else .run i (s.requeue more)

/-- The next instruction of the environment's schedule (20_memory.md rule R52). A configuration that breaks 00_scope.md rule R8 is
refused. Of two overlapping transactions the later one is held until the earlier has completed (92_eei_decisions.md D23), unless
their overlap has no meaning (rule R184). -/
def State.fetch (s : State) : Fetch :=
  if s.cfg.wf then
    match s.requests with
    | [] => .idle
    | .one r :: rest => { s with requests := rest }.fetchRaw r
    | .overlap a b :: rest =>
      if overlapConflict a b then .refuse .overlap
      else { s with requests := .one b :: rest }.fetchRaw a
  else .refuse .badConfig

/-- The in-frame rows of the opcode table are wire bytes that come after a `HEADER`: where `r` is one, and the decoder is not at
a position that reads it so, the decoder of the state that a `HEADER` byte leaves. notes/assumptions/6.md -/
def State.readyFor (s : State) : Raw → State
  | .inbound (b :: _) =>
    if b = s.cfg.header ∨ s.position.inFrame = true ∧ s.dec.esc = false then s
    else { s with dec := (s.dec.frameStart s.cfg).1 }
  | _ => s

/-- The word of the opcode table stands at the head of the schedule, at a position that reads it as its row. -/
def State.placeTableWord (s : State) (nbits w : Nat) : State :=
  let r := tableRaw s.cfg nbits w
  { s.readyFor r with requests := .one r :: s.requests }

end Sys2Proof.Machine
end

