-- ==== Sys2Proof/Machine/Inbound.lean ====
section
/-! DEFINITION. FEED and the inbound rows of the opcode table. A row stands for wire bytes, and its meaning is what the
reassembler does with those bytes, wherever it stands; the row's own rule says what that is at the row's own position.
notes/assumptions/8.md -/

namespace Sys2Proof.Machine

/-- FEED (41_inbound_reassembler.md rule R100). -/
def execFeed (b : Byte) (s : State) : Host.Outcome State Fault Refusal := s.feedByte b

/-- IN.HEADER (rule R102). -/
def execInHeader (s : State) : Host.Outcome State Fault Refusal := feedBytes [s.cfg.header] s

/-- IN.ESC_PREFIX (rule R103). -/
def execInEscPrefix (s : State) : Host.Outcome State Fault Refusal := feedBytes [s.cfg.esc] s

/-- IN.ESC_SUB (rule R104): what is still to come of the pair `ESC SUB`. -/
def execInEscSub (s : State) : Host.Outcome State Fault Refusal := feedBytes (pairBytes s.cfg s.position s.cfg.sub) s

/-- IN.ESC_ESC (rule R105): what is still to come of the pair `ESC ESC`. -/
def execInEscEsc (s : State) : Host.Outcome State Fault Refusal := feedBytes (pairBytes s.cfg s.position s.cfg.esc) s

/-- IN.ESC_HEADER (rule R102): what is still to come of `ESC` and `HEADER`. -/
def execInEscHeader (s : State) : Host.Outcome State Fault Refusal := feedBytes (pairBytes s.cfg s.position s.cfg.header) s

/-- IN.ESC_BAD (rule R106): what is still to come of the pair `ESC x`. -/
def execInEscBad (x : Byte) (s : State) : Host.Outcome State Fault Refusal := feedBytes (pairBytes s.cfg s.position x) s

/-- IN.LITERAL (rule R107). -/
def execInLiteral (b : Byte) (s : State) : Host.Outcome State Fault Refusal := feedBytes [b] s

/-- IN.UNSYNCED (rule R101). -/
def execInUnsynced (b : Byte) (s : State) : Host.Outcome State Fault Refusal := feedBytes [b] s

end Sys2Proof.Machine
end

