-- ==== Sys2Proof/Machine/Outbound.lean ====
section
/-! DEFINITION. ENCODE, PASSTHRU and the outbound unit rows of the opcode table. -/

namespace Sys2Proof.Machine

/-- ENCODE (42_outbound_serializer.md rules R130 to R134). The size check comes before any emission (rule R131). -/
def execEncode (cmd dtype : Byte) (payload : List Byte) (s : State) : Host.Outcome State Fault Refusal :=
  if s.cfg.maxPayload < payload.length then .next (s.finish (.respond .payloadTooLarge))
  else .next ((muxCtrlAll (frameBytes s.cfg cmd dtype payload) s).finish (.respond .ok))

/-- PASSTHRU (rule R137). -/
def execPassthru (b : Byte) (s : State) : Host.Outcome State Fault Refusal := .next ((s.muxPt b).finish .idle)

/-- OUT.UNIT_CTRL: `MuxCtrl` (rule R135), one unit of an ENCODE. It is a part of an operation, so it has no outputs of its own,
and a step runs it only within one (rule R170). notes/assumptions/7.md -/
def execOutUnitCtrl (data : Byte) (s : State) : Host.Outcome State Fault Refusal := .next (s.muxCtrl data)

/-- OUT.UNIT_PT: `MuxPt` (rule R136), the unit of a PASSTHRU. notes/assumptions/7.md -/
def execOutUnitPt (data : Byte) (s : State) : Host.Outcome State Fault Refusal := .next (s.muxPt data)

/-- OUT.UNIT_RESERVED: the block never emits such a unit and a model refuses it (30_encoding.md rule R65, rule R140,
93_implementation_defined.md I5). -/
def execOutUnitReserved (tag : Byte) (_data : Byte) (_s : State) : Host.Outcome State Fault Refusal :=
  .refused (.reservedTag tag)

end Sys2Proof.Machine
end

