-- ==== Sys2Proof/Machine/System.lean ====
section
/-! DEFINITION. RESET. -/

namespace Sys2Proof.Machine

/-- RESET (70_reset_and_hazards.md rule R181): `S` returns to its reset values; `BUF` and `OUT` are unchanged, and there is no
event. -/
def execReset (s : State) : Host.Outcome State Fault Refusal :=
  .next (s.decoded { Decoder.reset with buf := s.dec.buf } .idle)

end Sys2Proof.Machine
end

