-- ==== Sys2Proof/Machine/Dispatch.lean ====
section
/-! DEFINITION. One arm per constructor of Instr. -/

namespace Sys2Proof.Machine

/-- The meaning of an instruction. -/
def exec (i : Instr) (s : State) : Host.Outcome State Fault Refusal :=
  match i with
  | .feed b => Sys2Proof.Machine.execFeed b s
  | .encode cmd dtype payload => Sys2Proof.Machine.execEncode cmd dtype payload s
  | .passthru b => Sys2Proof.Machine.execPassthru b s
  | .reset => Sys2Proof.Machine.execReset s
  | .inHeader => Sys2Proof.Machine.execInHeader s
  | .inEscPrefix => Sys2Proof.Machine.execInEscPrefix s
  | .inEscSub => Sys2Proof.Machine.execInEscSub s
  | .inEscEsc => Sys2Proof.Machine.execInEscEsc s
  | .inEscHeader => Sys2Proof.Machine.execInEscHeader s
  | .inEscBad x => Sys2Proof.Machine.execInEscBad x s
  | .inLiteral b => Sys2Proof.Machine.execInLiteral b s
  | .inUnsynced b => Sys2Proof.Machine.execInUnsynced b s
  | .outUnitCtrl data => Sys2Proof.Machine.execOutUnitCtrl data s
  | .outUnitPt data => Sys2Proof.Machine.execOutUnitPt data s
  | .outUnitReserved tag data => Sys2Proof.Machine.execOutUnitReserved tag data s

end Sys2Proof.Machine
end

