-- ==== Sys2Proof/Machine/Step.lean ====
section
/-! DEFINITION. One step of the machine: the next instruction of the environment's schedule runs to completion. -/

namespace Sys2Proof.Machine

/-- One atomic operation of the schedule (00_scope.md rules R6 and R12). With nothing issued, nothing changes
(41_inbound_reassembler.md rule R118). -/
def step (s : State) : Host.Outcome State Fault Refusal :=
  match s.fetch with
  | .idle => .next s
  | .refuse r => .refused r
  | .run i t => exec i t

/-- The word of the opcode table where the next step fetches it. -/
def State.withFetchWord (s : State) (nbits w : Nat) : State := s.placeTableWord nbits w

end Sys2Proof.Machine
end

