-- ==== Sys2Proof/Safety.lean ====
section
/-! DEFINITION. The terms the statements use: runs of operations, the outbound stream as a host reads it, a FEED's logical byte and
where the rules place it, and the invariants. -/

namespace Sys2Proof.Machine

/-- The instructions run one after another; the environment's total order (20_memory.md rule R52). -/
def execAll : List Instr → State → Host.Outcome State Fault Refusal
  | [], s => .next s
  | i :: is, s =>
    match exec i s with
    | .next t => execAll is t
    | .fault r => .fault r
    | .refused r => .refused r

/-- FEEDs of wire bytes, as instructions (30_encoding.md rule R67). -/
def feeds (bytes : List Byte) : List Instr := bytes.map .feed

/-- One of the four operations that a caller of the block may issue (30_encoding.md rule R66). -/
def isOperation : Instr → Bool
  | .feed _ | .encode _ _ _ | .passthru _ | .reset => true
  | .inHeader | .inEscPrefix | .inEscSub | .inEscEsc | .inEscHeader | .inEscBad _ | .inLiteral _ | .inUnsynced _ => false
  | .outUnitCtrl _ | .outUnitPt _ | .outUnitReserved _ _ => false

/-- An instruction of the outbound direction (20_memory.md rule R52). RESET counts as inbound. -/
def isOutbound : Instr → Bool
  | .feed _ | .reset => false
  | .inHeader | .inEscPrefix | .inEscSub | .inEscEsc | .inEscHeader | .inEscBad _ | .inLiteral _ | .inUnsynced _ => false
  | .encode _ _ _ | .passthru _ => true
  | .outUnitCtrl _ | .outUnitPt _ | .outUnitReserved _ _ => true

/-- The units of a channel that carry the given bytes (30_encoding.md rule R64). -/
def tagged (tag : Byte) : List Byte → List Byte
  | [] => []
  | w :: ws => tag :: w :: tagged tag ws

/-- The host's demultiplexer: the data bytes of the units with one tag, read two bytes at a time from offset 0
(70_reset_and_hazards.md rule R187). -/
def demux (tag : Byte) : List Byte → List Byte
  | t :: d :: rest => if t = tag then d :: demux tag rest else demux tag rest
  | _ => []

/-- Whole units from offset 0, each with one of the two tags (20_memory.md rule R45, 42_outbound_serializer.md rule R140). -/
def unitAligned (cfg : Config) : List Byte → Prop
  | [] => True
  | [_] => False
  | t :: _ :: rest => (t = cfg.tagCtrl ∨ t = cfg.tagPt) ∧ unitAligned cfg rest

/-- The bytes that an instruction appends to `OUT` (rule R138). -/
def emittedBy (cfg : Config) : Instr → List Byte
  | .encode c d p => if p.length ≤ cfg.maxPayload then tagged cfg.tagCtrl (frameBytes cfg c d p) else []
  | .passthru b => [cfg.tagPt, b]
  | .outUnitCtrl w => [cfg.tagCtrl, w]
  | .outUnitPt b => [cfg.tagPt, b]
  | .feed _ | .reset | .outUnitReserved _ _ => []
  | .inHeader | .inEscPrefix | .inEscSub | .inEscEsc | .inEscHeader | .inEscBad _ | .inLiteral _ | .inUnsynced _ => []

/-- The frame bytes of an operation that is a successful ENCODE (rule R140). -/
def encodedBy (cfg : Config) : Instr → List Byte
  | .encode c d p => if p.length ≤ cfg.maxPayload then frameBytes cfg c d p else []
  | .feed _ | .passthru _ | .reset | .outUnitCtrl _ | .outUnitPt _ | .outUnitReserved _ _ => []
  | .inHeader | .inEscPrefix | .inEscSub | .inEscEsc | .inEscHeader | .inEscBad _ | .inLiteral _ | .inUnsynced _ => []

/-- The operand of an operation that is a PASSTHRU (rule R140). -/
def forwardedBy : Instr → List Byte
  | .passthru b => [b]
  | .feed _ | .encode _ _ _ | .reset | .outUnitCtrl _ | .outUnitPt _ | .outUnitReserved _ _ => []
  | .inHeader | .inEscPrefix | .inEscSub | .inEscEsc | .inEscHeader | .inEscBad _ | .inLiteral _ | .inUnsynced _ => []

/-- A successful ENCODE (rule R131). -/
def encodes (cfg : Config) : Instr → Bool
  | .encode _ _ p => decide (p.length ≤ cfg.maxPayload)
  | .feed _ | .passthru _ | .reset | .outUnitCtrl _ | .outUnitPt _ | .outUnitReserved _ _ => false
  | .inHeader | .inEscPrefix | .inEscSub | .inEscEsc | .inEscHeader | .inEscBad _ | .inLiteral _ | .inUnsynced _ => false

/-- The frames delivered, oldest first. -/
def framesOf (rs : List Outputs) : List Frame := rs.filterMap (·.frame)

/-- The events signalled, oldest first; `NONE` is no event. -/
def eventsOf (rs : List Outputs) : List DecEvent := (rs.map (·.event)).filter (· != .none)

/-- The encode responses given, oldest first. -/
def respsOf (rs : List Outputs) : List EncResp := rs.filterMap (·.resp)

/-- The decoder state that a FEED finds makes `b` stand for the logical byte `v`: a literal (41_inbound_reassembler.md rule R107),
the second byte of a pair (rules R104 and R105), or a bad escape under `Literal` (rule R106). -/
def Resolves (cfg : Config) (esc : Bool) (b v : Byte) : Prop :=
  b ≠ cfg.header ∧
    (esc = false ∧ b ≠ cfg.esc ∧ v = b ∨
      esc = true ∧ b = cfg.sub ∧ v = cfg.header ∨
      esc = true ∧ b ≠ cfg.sub ∧ b = cfg.esc ∧ v = cfg.esc ∨
      esc = true ∧ b ≠ cfg.sub ∧ b ≠ cfg.esc ∧ cfg.badEscape = .literal ∧ v = b)

/-- `b` is the second byte of a bad escape (rule R106). -/
def IsBadEscape (cfg : Config) (d : Decoder) (b : Byte) : Prop :=
  d.esc = true ∧ b ≠ cfg.sub ∧ b ≠ cfg.esc ∧ b ≠ cfg.header

/-- Where the rules place a logical byte `v` that a FEED finds in decoder state `d`: as length (rule R108), body byte (rule R109),
overflow (rule R112), or checksum (rules R110 and R111). `d'` is the state after that FEED and `o` its outputs. -/
def Placed (cfg : Config) (d : Decoder) (v : Byte) (d' : Decoder) (o : Outputs) : Prop :=
  (d.phase = .awaitLength ∧ o = ⟨none, .none, none⟩ ∧
      d' = { d with phase := .body, esc := false, csum := d.csum + v, len := v, idx := 0 }) ∨
    (d.phase = .body ∧ d.idx < d.len.toNat ∧ d.idx < cfg.bufCap ∧ o = ⟨none, .none, none⟩ ∧
      d' = { d with esc := false, csum := d.csum + v, idx := d.idx + 1, buf := bufWrite d.buf d.idx v }) ∨
    (d.phase = .body ∧ d.idx < d.len.toNat ∧ cfg.bufCap ≤ d.idx ∧ o = ⟨none, .bufferOverflow, none⟩ ∧
      d' = { d with phase := .awaitHeader, esc := false }) ∨
    (d.phase = .body ∧ d.idx = d.len.toNat ∧ v = d.csum ∧ d' = { d with phase := .awaitHeader, esc := false } ∧
      ∃ bytes, o = ⟨some ⟨d.len, bytes⟩, .frame, none⟩ ∧ bytes.length = d.len.toNat ∧
        ∀ i, i < d.len.toNat → bufRead cfg.bufCap d.buf i = bytes[i]?) ∨
    (d.phase = .body ∧ d.idx = d.len.toNat ∧ v ≠ d.csum ∧ o = ⟨none, .checksumMismatch, none⟩ ∧
      d' = { d with phase := .awaitHeader, esc := false })

/-- A body byte is what FEED finds, and there is room for it: the store of rule R109, at `BUF[S.idx]`. -/
def Stores (cfg : Config) (d : Decoder) (b : Byte) : Prop :=
  d.phase = .body ∧ d.idx < d.len.toNat ∧ d.idx < cfg.bufCap ∧ ∃ v, Resolves cfg d.esc b v

/-- The index bounds of 10_state.md rules R20 and R25, where `S.idx` is read. -/
def IndexInv (cfg : Config) (d : Decoder) : Prop := d.phase = .body → d.idx ≤ d.len.toNat ∧ d.idx ≤ cfg.bufCap

/-- The invariant of the decoder state record. -/
structure DecoderInv (cfg : Config) (d : Decoder) : Prop where
  /-- The decode buffer keeps its canonical form. -/
  canonical : Memory.wf d.buf
  /-- No entry at or above `BUF_CAP` has been written (20_memory.md rules R40 and R41). -/
  inBuffer : ∀ c ∈ d.buf, c.1 < cfg.bufCap
  /-- `S.idx` ranges over `0..BUF_CAP` (10_state.md rule R20). -/
  idxBound : d.idx ≤ cfg.bufCap
  /-- A byte in `AwaitHeader` never sets the escape flag (rule R22). -/
  escOnlyInFrame : d.phase = .awaitHeader → d.esc = false
  /-- Right after a header only the header has been summed (rules R23 and R25). -/
  started : d.phase = .awaitLength → d.csum = cfg.header ∧ d.idx = 0
  /-- `S.idx ≤ S.len` whenever `S.phase = Body` (rule R25). -/
  bodyIndex : d.phase = .body → d.idx ≤ d.len.toNat
  /-- The accumulator is the sum of the header, the length and the body bytes stored, which stand at `BUF[0..S.idx-1]`
  (rules R23 and R26). -/
  bodySum : d.phase = .body → ∃ bytes : List Byte, bytes.length = d.idx ∧
    (∀ i, i < d.idx → bufLookup d.buf i = bytes[i]?) ∧ d.csum = sumBytes (cfg.header :: d.len :: bytes)

/-- The invariant of the whole machine. -/
structure Inv (s : State) : Prop where
  decoder : DecoderInv s.cfg s.dec
  outbound : unitAligned s.cfg s.out

end Sys2Proof.Machine
end

