-- ==== Sys2Proof/Certificates/Slice0/Obligations.lean ====
section
/-! DEFINITION. The statements for the provers. Each docstring names the rule of spec/ it formalises. -/

open Sys2Proof Sys2Proof.Machine

/-- 70_reset_and_hazards.md rule R180: every piece of state after reset. A `BUF` entry holds any value: it reads as a free
value. -/
def Obligations.ResetStateValues : Prop :=
  State.reset.dec.phase = .awaitHeader ∧ State.reset.dec.esc = false ∧ State.reset.dec.csum = 0x00#8 ∧
    State.reset.dec.len = 0x00#8 ∧ State.reset.dec.idx = 0 ∧ State.reset.out = [] ∧
    (∀ i, i < State.reset.cfg.bufCap →
      bufRead State.reset.cfg.bufCap State.reset.dec.buf i = some (Config.bufContents i)) ∧
    State.reset.cfg = Config.defaults

/-- 00_scope.md rules R7 and R8: the default column, and that it satisfies R8 (a) to (f). -/
def Obligations.DefaultParameters : Prop :=
  Config.defaults.header = 0xF1#8 ∧ Config.defaults.esc = 0x1A#8 ∧ Config.defaults.sub = 0x20#8 ∧
    Config.defaults.tagCtrl = 0x00#8 ∧ Config.defaults.tagPt = 0x01#8 ∧ Config.defaults.maxPayload = 253 ∧
    Config.defaults.bufCap = 256 ∧ Config.defaults.badEscape = .discard ∧ 9 ≤ Config.defaults.wEncN ∧
    Config.defaults.wf

/-- Rule R181: RESET, as one whole state; `BUF`, `OUT` and the parameters are unchanged and there is no event. -/
def Obligations.ResetOperationRestoresDecoder : Prop :=
  ∀ s : State, exec .reset s = .next
    { s with dec := ⟨.awaitHeader, false, 0#8, 0#8, 0, s.dec.buf⟩, results := s.results ++ [⟨none, .none, none⟩] }

/-- 41_inbound_reassembler.md rule R101, for FEED and for the row IN.UNSYNCED. -/
def Obligations.UnsyncedByteIsDiscarded : Prop :=
  ∀ (s : State) (b : Byte), s.dec.phase = .awaitHeader → b ≠ s.cfg.header →
    exec (.feed b) s = .next { s with results := s.results ++ [⟨none, .unsyncedByte, none⟩] } ∧
    exec (.inUnsynced b) s = .next { s with results := s.results ++ [⟨none, .unsyncedByte, none⟩] }

/-- Rule R102, for FEED and for the row IN.HEADER: in every phase and whatever `S.esc` is. -/
def Obligations.HeaderStartsFrame : Prop :=
  ∀ s t : State,
    t = { s with
      dec := { s.dec with phase := .awaitLength, csum := s.cfg.header, esc := false, idx := 0 }
      results := s.results ++ [⟨none, if s.dec.phase = .awaitHeader then .none else .resync, none⟩] } →
    exec (.feed s.cfg.header) s = .next t ∧ exec .inHeader s = .next t

/-- Rule R103, for FEED and for the row IN.ESC_PREFIX. -/
def Obligations.EscapePrefixSetsFlagOnly : Prop :=
  ∀ s t : State, s.cfg.wf → s.dec.phase ≠ .awaitHeader → s.dec.esc = false →
    t = { s with dec := { s.dec with esc := true }, results := s.results ++ [⟨none, .none, none⟩] } →
    exec (.feed s.cfg.esc) s = .next t ∧ exec .inEscPrefix s = .next t

/-- The row IN.ESC_HEADER (rules R102 and R103): the pending escape is dropped and the frame restarts with `RESYNC`. Where the
`ESC` is still to come, it is taken first and signals nothing: the model's reading of the row (notes/assumptions/8.md). -/
def Obligations.EscapeThenHeaderRestarts : Prop :=
  ∀ s : State, s.cfg.wf → s.dec.phase ≠ .awaitHeader →
    exec .inEscHeader s = .next { s with
      dec := { s.dec with phase := .awaitLength, csum := s.cfg.header, esc := false, idx := 0 }
      results := s.results ++ (if s.dec.esc = true then [] else [⟨none, .none, none⟩]) ++ [⟨none, .resync, none⟩] }

/-- Rule R104, for FEED and for the row IN.ESC_SUB: the pair stands for the logical byte `HEADER`. That the row takes the `ESC`
first, as a FEED of its own, where no escape is pending is the model's reading (notes/assumptions/8.md). -/
def Obligations.EscapedHeaderIsPlaced : Prop :=
  ∀ s : State, s.cfg.wf → IndexInv s.cfg s.dec → s.dec.phase ≠ .awaitHeader →
    ∃ d o, Placed s.cfg s.dec s.cfg.header d o ∧
      (s.dec.esc = true →
        exec (.feed s.cfg.sub) s = .next { s with dec := d, results := s.results ++ [o] } ∧
        exec .inEscSub s = .next { s with dec := d, results := s.results ++ [o] }) ∧
      (s.dec.esc = false →
        exec .inEscSub s = .next { s with dec := d, results := s.results ++ [⟨none, .none, none⟩, o] })

/-- Rule R105, for FEED and for the row IN.ESC_ESC: the pair stands for the logical byte `ESC`. That the row takes the first `ESC`
as a FEED of its own where no escape is pending is the model's reading (notes/assumptions/8.md). -/
def Obligations.EscapedEscapeIsPlaced : Prop :=
  ∀ s : State, s.cfg.wf → IndexInv s.cfg s.dec → s.dec.phase ≠ .awaitHeader →
    ∃ d o, Placed s.cfg s.dec s.cfg.esc d o ∧
      (s.dec.esc = true →
        exec (.feed s.cfg.esc) s = .next { s with dec := d, results := s.results ++ [o] } ∧
        exec .inEscEsc s = .next { s with dec := d, results := s.results ++ [o] }) ∧
      (s.dec.esc = false →
        exec .inEscEsc s = .next { s with dec := d, results := s.results ++ [⟨none, .none, none⟩, o] })

/-- Rule R106 under `Discard`, for FEED and for the row IN.ESC_BAD. That the row takes the `ESC` first, as a FEED of its own, where
no escape is pending is the model's reading (notes/assumptions/8.md). -/
def Obligations.BadEscapeDiscardsFrame : Prop :=
  ∀ (s : State) (x : Byte), s.cfg.wf → s.dec.phase ≠ .awaitHeader → s.cfg.badEscape = .discard →
    x ≠ s.cfg.sub → x ≠ s.cfg.esc → x ≠ s.cfg.header →
    (s.dec.esc = true → exec (.feed x) s = .next { s with
      dec := { s.dec with phase := .awaitHeader, esc := false }
      results := s.results ++ [⟨none, .badEscape, none⟩] }) ∧
    exec (.inEscBad x) s = .next { s with
      dec := { s.dec with phase := .awaitHeader, esc := false }
      results := s.results ++ (if s.dec.esc = true then [] else [⟨none, .none, none⟩]) ++ [⟨none, .badEscape, none⟩] }

/-- Rule R106 under `Literal`, for FEED and for the row IN.ESC_BAD: the second byte is the logical byte. Its event is that of the
rule that places it (notes/assumptions/9.md), and that the row takes the `ESC` first, as a FEED of its own, where no escape is
pending is the model's reading (notes/assumptions/8.md). -/
def Obligations.BadEscapeUnderLiteralIsPlaced : Prop :=
  ∀ (s : State) (x : Byte), s.cfg.wf → IndexInv s.cfg s.dec → s.dec.phase ≠ .awaitHeader →
    s.cfg.badEscape = .literal → x ≠ s.cfg.sub → x ≠ s.cfg.esc → x ≠ s.cfg.header →
    ∃ d o, Placed s.cfg s.dec x d o ∧
      (s.dec.esc = true → exec (.feed x) s = .next { s with dec := d, results := s.results ++ [o] }) ∧
      exec (.inEscBad x) s = .next { s with
        dec := d
        results := s.results ++ (if s.dec.esc = true then [] else [⟨none, .none, none⟩]) ++ [o] }

/-- Rule R107, for FEED and for the row IN.LITERAL. `SUB` is among the bytes. -/
def Obligations.LiteralByteIsPlaced : Prop :=
  ∀ (s : State) (b : Byte), IndexInv s.cfg s.dec → s.dec.phase ≠ .awaitHeader → s.dec.esc = false →
    b ≠ s.cfg.header → b ≠ s.cfg.esc →
    ∃ d o, Placed s.cfg s.dec b d o ∧
      exec (.feed b) s = .next { s with dec := d, results := s.results ++ [o] } ∧
      exec (.inLiteral b) s = .next { s with dec := d, results := s.results ++ [o] }

/-- Rule R108: the length byte. -/
def Obligations.LengthByteIsTaken : Prop :=
  ∀ (s : State) (b v : Byte), s.dec.phase = .awaitLength → Resolves s.cfg s.dec.esc b v →
    exec (.feed b) s = .next { s with
      dec := { s.dec with phase := .body, esc := false, csum := s.dec.csum + v, len := v, idx := 0 }
      results := s.results ++ [⟨none, .none, none⟩] }

/-- Rule R109: a body byte, and the buffer read back after it. -/
def Obligations.BodyByteIsStored : Prop :=
  ∀ (s : State) (b v : Byte), s.dec.phase = .body → s.dec.idx < s.dec.len.toNat → s.dec.idx < s.cfg.bufCap →
    Resolves s.cfg s.dec.esc b v →
    ∃ m, exec (.feed b) s = .next { s with
        dec := { s.dec with esc := false, csum := s.dec.csum + v, idx := s.dec.idx + 1, buf := m }
        results := s.results ++ [⟨none, .none, none⟩] } ∧
      bufRead s.cfg.bufCap m s.dec.idx = some v ∧
      ∀ i, i ≠ s.dec.idx → bufRead s.cfg.bufCap m i = bufRead s.cfg.bufCap s.dec.buf i

/-- Rule R110: the checksum byte matches, and the buffered bytes are delivered. Under the invariant every entry delivered has been
written. -/
def Obligations.ChecksumMatchDelivers : Prop :=
  ∀ (s : State) (b : Byte), DecoderInv s.cfg s.dec → s.dec.phase = .body → s.dec.idx = s.dec.len.toNat →
    Resolves s.cfg s.dec.esc b s.dec.csum →
    ∃ bytes, exec (.feed b) s = .next { s with
        dec := { s.dec with phase := .awaitHeader, esc := false }
        results := s.results ++ [⟨some ⟨s.dec.len, bytes⟩, .frame, none⟩] } ∧
      bytes.length = s.dec.len.toNat ∧ (∀ i, i < s.dec.len.toNat → bufLookup s.dec.buf i = bytes[i]?) ∧
      s.dec.csum = sumBytes (s.cfg.header :: s.dec.len :: bytes)

/-- Rule R111: the checksum byte does not match. -/
def Obligations.ChecksumMismatchDiscards : Prop :=
  ∀ (s : State) (b v : Byte), s.dec.phase = .body → s.dec.idx = s.dec.len.toNat →
    Resolves s.cfg s.dec.esc b v → v ≠ s.dec.csum →
    exec (.feed b) s = .next { s with
      dec := { s.dec with phase := .awaitHeader, esc := false }
      results := s.results ++ [⟨none, .checksumMismatch, none⟩] }

/-- Rule R112: the overflow, and that `BUF_CAP ≥ 255` makes it unreachable. -/
def Obligations.BufferOverflowDiscards : Prop :=
  (∀ (s : State) (b v : Byte), s.dec.phase = .body → s.dec.idx < s.dec.len.toNat → s.cfg.bufCap ≤ s.dec.idx →
    Resolves s.cfg s.dec.esc b v →
    exec (.feed b) s = .next { s with
      dec := { s.dec with phase := .awaitHeader, esc := false }
      results := s.results ++ [⟨none, .bufferOverflow, none⟩] }) ∧
  (∀ (s t : State) (b : Byte) (o : Outputs), 255 ≤ s.cfg.bufCap → exec (.feed b) s = .next t →
    t.results = s.results ++ [o] → o.event ≠ .bufferOverflow)

/-- FEED completes from every state that keeps the index bounds, and its frame: the parameters, `OUT` and the schedule are
unchanged, one result is added, and of `BUF` only `BUF[S.idx]` changes, and that only when a body byte is stored (rules R34, R41,
R100). -/
def Obligations.FeedCompletesWithItsFrame : Prop :=
  ∀ (s : State) (b : Byte), IndexInv s.cfg s.dec → ∃ t o, exec (.feed b) s = .next t ∧
    t.cfg = s.cfg ∧ t.out = s.out ∧ t.requests = s.requests ∧ t.results = s.results ++ [o] ∧ o.resp = none ∧
    (Stores s.cfg s.dec b → ∀ i, i ≠ s.dec.idx →
      bufRead s.cfg.bufCap t.dec.buf i = bufRead s.cfg.bufCap s.dec.buf i) ∧
    (¬ Stores s.cfg s.dec b → ∀ i, bufRead s.cfg.bufCap t.dec.buf i = bufRead s.cfg.bufCap s.dec.buf i)

/-- Rule R113: when a frame is delivered, and where the decoder is after an event. -/
def Obligations.OneFeedDeliversAtMostOneFrame : Prop :=
  ∀ (s t : State) (b : Byte), IndexInv s.cfg s.dec → exec (.feed b) s = .next t →
    ∃ o, t.results = s.results ++ [o] ∧ (o.frame ≠ none ↔ o.event = .frame) ∧
      (o.frame ≠ none ↔
        s.dec.phase = .body ∧ s.dec.idx = s.dec.len.toNat ∧ Resolves s.cfg s.dec.esc b s.dec.csum) ∧
      (o.event = .frame ∨ o.event = .checksumMismatch ∨ o.event = .badEscape ∨ o.event = .bufferOverflow →
        t.dec.phase = .awaitHeader)

/-- Rule R114: the phase graph. Every FEED takes one of these edges. -/
def Obligations.PhaseGraph : Prop :=
  ∀ (s t : State) (b : Byte), s.cfg.wf → exec (.feed b) s = .next t →
    (b = s.cfg.header ∧ t.dec.phase = .awaitLength) ∨
    (s.dec.phase = .awaitHeader ∧ b ≠ s.cfg.header ∧ t.dec.phase = .awaitHeader) ∨
    (s.dec.phase ≠ .awaitHeader ∧ s.dec.esc = false ∧ b = s.cfg.esc ∧ t.dec.phase = s.dec.phase) ∨
    (s.dec.phase ≠ .awaitHeader ∧ IsBadEscape s.cfg s.dec b ∧ s.cfg.badEscape = .discard ∧
      t.dec.phase = .awaitHeader) ∨
    (s.dec.phase = .awaitLength ∧ (∃ v, Resolves s.cfg s.dec.esc b v) ∧ t.dec.phase = .body) ∨
    (Stores s.cfg s.dec b ∧ t.dec.phase = .body) ∨
    (s.dec.phase = .body ∧ (∃ v, Resolves s.cfg s.dec.esc b v) ∧ ¬ Stores s.cfg s.dec b ∧ t.dec.phase = .awaitHeader)

/-- 60_exceptions.md rules R163 and R166: what a decoder error changes, and where each event leaves the decoder. -/
def Obligations.DecoderErrorIsPrecise : Prop :=
  ∀ (s t : State) (b : Byte) (o : Outputs), exec (.feed b) s = .next t → t.results = s.results ++ [o] →
    (o.event = .checksumMismatch ∨ o.event = .badEscape ∨ o.event = .bufferOverflow →
      t = { s with dec := { s.dec with phase := .awaitHeader, esc := false }, results := s.results ++ [o] } ∧
      o.frame = none) ∧
    (o.event = .unsyncedByte →
      s.dec.phase = .awaitHeader ∧ t = { s with results := s.results ++ [o] } ∧ o.frame = none) ∧
    (o.event = .resync → s.dec.phase ≠ .awaitHeader ∧ t.dec.phase = .awaitLength) ∧ t.cfg = s.cfg

/-- 10_state.md rule R31: a delivered frame's length, and the dispatcher's views of it. -/
def Obligations.DeliveredFrameViews : Prop :=
  ∀ (s t : State) (b : Byte) (o : Outputs) (f : Frame), exec (.feed b) s = .next t →
    t.results = s.results ++ [o] → o.frame = some f →
    f.len = s.dec.len ∧ f.bytes.length = f.len.toNat ∧
    (2 ≤ f.len.toNat → ∃ c d p, f.bytes = c :: d :: p ∧
      f.command = some c ∧ f.dataType = some d ∧ f.payload = some p) ∧
    (f.len.toNat < 2 → f.command = none ∧ f.dataType = none ∧ f.payload = none)

/-- Rule R117: frames with declared length 0 and 1 are delivered, without views, from every decoder state. -/
def Obligations.ShortFramesAreDelivered : Prop :=
  ∀ (s : State) (x : Byte), s.cfg.wf →
    (∃ t, execAll (feeds (s.cfg.header :: escapeAll s.cfg [0#8, s.cfg.header])) s = .next t ∧
      framesOf t.results = framesOf s.results ++ [⟨0#8, []⟩] ∧ t.dec.phase = .awaitHeader) ∧
    (∃ t, execAll (feeds (s.cfg.header :: escapeAll s.cfg [1#8, x, s.cfg.header + 1#8 + x])) s = .next t ∧
      framesOf t.results = framesOf s.results ++ [⟨1#8, [x]⟩] ∧ t.dec.phase = .awaitHeader) ∧
    (⟨0#8, []⟩ : Frame).command = none ∧ (⟨0#8, []⟩ : Frame).dataType = none ∧
    (⟨1#8, [x]⟩ : Frame).command = none ∧ (⟨1#8, [x]⟩ : Frame).dataType = none

/-- Rule R118: a frame in progress persists across any operations that are no FEED and no RESET, and across a step for which
nothing has been issued. -/
def Obligations.NoTimeout : Prop :=
  (∀ (ops : List Instr) (s t : State), ops.all isOutbound = true → execAll ops s = .next t → t.dec = s.dec) ∧
    (∀ s : State, s.cfg.wf → s.requests = [] → step s = .next s)

/-- Rule R115, where the frame fits the buffer (notes/assumptions/10.md): from EVERY decoder state, the wire bytes of a frame
deliver that frame at their last byte, and signal nothing between. -/
def Obligations.ResynchronizesOnEveryFrame : Prop :=
  ∀ (s : State) (c d : Byte) (p : List Byte), s.cfg.wf → p.length + 2 ≤ 255 → p.length + 2 ≤ s.cfg.bufCap →
    ∃ t, execAll (feeds (frameBytes s.cfg c d p)) s = .next t ∧
      t.results = s.results ++ [⟨none, if s.dec.phase = .awaitHeader then .none else .resync, none⟩] ++
        List.replicate ((frameBytes s.cfg c d p).length - 2) ⟨none, .none, none⟩ ++
        [⟨some ⟨BitVec.ofNat 8 (p.length + 2), c :: d :: p⟩, .frame, none⟩] ∧
      t.dec.phase = .awaitHeader ∧ t.cfg = s.cfg ∧ t.out = s.out ∧ t.requests = s.requests

/-- Rule R119, for the frames ENCODE can make: whatever bytes come before, a later frame is delivered. -/
def Obligations.GarbageNeverBlocksFrame : Prop :=
  ∀ (s : State) (garbage : List Byte) (c d : Byte) (p : List Byte), s.cfg.wf → IndexInv s.cfg s.dec →
    p.length ≤ s.cfg.maxPayload →
    ∃ t early, execAll (feeds (garbage ++ frameBytes s.cfg c d p)) s = .next t ∧
      framesOf t.results = framesOf s.results ++ early ++ [⟨BitVec.ofNat 8 (p.length + 2), c :: d :: p⟩] ∧
      t.dec.phase = .awaitHeader

/-- 42_outbound_serializer.md rule R142: the control-channel bytes of an ENCODE, fed to a reassembler in any state, deliver what
was encoded at the last byte and nothing before it. -/
def Obligations.RoundTrip : Prop :=
  ∀ (s u : State) (c d : Byte) (p : List Byte), s.cfg.wf → u.cfg = s.cfg → p.length ≤ s.cfg.maxPayload →
    ∃ t bytes, exec (.encode c d p) s = .next t ∧ t.out = s.out ++ tagged s.cfg.tagCtrl bytes ∧
      ∃ w early o, execAll (feeds bytes) u = .next w ∧ w.results = u.results ++ early ++ [o] ∧
        framesOf early = [] ∧ o.event = .frame ∧
        o.frame = some ⟨BitVec.ofNat 8 (p.length + 2), c :: d :: p⟩ ∧
        (BitVec.ofNat 8 (p.length + 2)).toNat = p.length + 2

/-- Rule R116 (a), at the logical bytes: a frame with one body byte or its checksum changed is answered `CHECKSUM_MISMATCH` at its
last byte, and nothing is delivered. -/
def Obligations.AlteredByteIsDetected : Prop :=
  ∀ (s : State) (c d : Byte) (p pre post : List Byte) (x y z : Byte), s.cfg.wf → p.length ≤ s.cfg.maxPayload →
    c :: d :: p = pre ++ x :: post →
    (y ≠ x ∧ z = frameChecksum s.cfg c d p) ∨ (y = x ∧ z ≠ frameChecksum s.cfg c d p) →
    ∃ t early, execAll (feeds (s.cfg.header :: escapeAll s.cfg
        (BitVec.ofNat 8 (p.length + 2) :: pre ++ y :: post ++ [z]))) s = .next t ∧
      t.results = s.results ++ early ++ [⟨none, .checksumMismatch, none⟩] ∧ framesOf early = [] ∧
      t.dec.phase = .awaitHeader

/-- 10_state.md rule R33: two machines whose decoders are both in `AwaitHeader` cannot be told apart by any operations. -/
def Obligations.IdleDecoderStateIsUnobservable : Prop :=
  ∀ (s u : State) (ops : List Instr), u.cfg = s.cfg → u.out = s.out → u.results = s.results →
    s.dec.phase = .awaitHeader → u.dec.phase = .awaitHeader → ops.all isOperation = true →
    ∃ t w, execAll ops s = .next t ∧ execAll ops u = .next w ∧ w.results = t.results ∧ w.out = t.out ∧
      w.dec.phase = t.dec.phase

/-- Rule R182: after RESET no operations can tell the block from one that has just been created; the decoder states differ only in
`BUF`. -/
def Obligations.ResetIsObservablyFresh : Prop :=
  ∀ (s : State) (ops : List Instr), ops.all isOperation = true →
    ∃ r t w, exec .reset s = .next r ∧ { r.dec with buf := [] } = (State.create s.cfg).dec ∧
      execAll ops r = .next t ∧ execAll ops (State.create s.cfg) = .next w ∧
      t.results = r.results ++ w.results ∧ t.out = s.out ++ w.out ∧ t.dec.phase = w.dec.phase

/-- 20_memory.md rule R52: any interleaving of the two directions gives the inbound outputs and the decoder state of its inbound
operations alone, and the `OUT` and the responses of its outbound operations alone. -/
def Obligations.DirectionsAreIndependent : Prop :=
  ∀ (s t : State) (ops : List Instr), execAll ops s = .next t →
    ∃ a b, execAll (ops.filter fun i => !isOutbound i) s = .next a ∧ execAll (ops.filter isOutbound) s = .next b ∧
      t.dec = a.dec ∧ a.out = s.out ∧ framesOf t.results = framesOf a.results ∧
      eventsOf t.results = eventsOf a.results ∧
      t.out = b.out ∧ b.dec = s.dec ∧ respsOf t.results = respsOf b.results

/-- Rules R133 and R134: an ENCODE that is not refused appends the units of its frame, in the field order, and answers `OK`;
nothing else changes. -/
def Obligations.EncodeAppendsItsFrame : Prop :=
  ∀ (s : State) (c d : Byte) (p : List Byte) (n sum : Byte), p.length ≤ s.cfg.maxPayload →
    n = BitVec.ofNat 8 (p.length + 2) → sum = sumBytes ([s.cfg.header, n, c, d] ++ p) →
    exec (.encode c d p) s = .next { s with
      out := s.out ++ tagged s.cfg.tagCtrl
        (s.cfg.header :: escapeByte s.cfg n ++ escapeByte s.cfg c ++ escapeByte s.cfg d ++
          p.flatMap (escapeByte s.cfg) ++ escapeByte s.cfg sum)
      results := s.results ++ [⟨none, .none, some .ok⟩] }

/-- Rule R131: a payload over `MAX_PAYLOAD` is answered `PAYLOAD_TOO_LARGE` and nothing is emitted. -/
def Obligations.OversizedEncodeEmitsNothing : Prop :=
  ∀ (s : State) (c d : Byte) (p : List Byte), s.cfg.maxPayload < p.length →
    exec (.encode c d p) s = .next { s with results := s.results ++ [⟨none, .none, some .payloadTooLarge⟩] }

/-- Rule R132: the length field; its truncation discards no bit. -/
def Obligations.LengthFieldIsExact : Prop :=
  ∀ (cfg : Config) (n : Nat), cfg.wf → n ≤ cfg.maxPayload →
    (declaredLength n).toNat = n + 2 ∧ 2 ≤ (declaredLength n).toNat ∧ (declaredLength n).toNat ≤ cfg.maxPayload + 2 ∧
      (declaredLength n).toNat ≤ cfg.bufCap

/-- Rules R136 and R137: PASSTHRU appends one unit, verbatim; nothing else changes. -/
def Obligations.PassthruAppendsOneUnit : Prop :=
  ∀ (s : State) (b : Byte), exec (.passthru b) s = .next { s with
    out := s.out ++ [s.cfg.tagPt, b], results := s.results ++ [⟨none, .none, none⟩] }

/-- Rules R135 and R136: the unit rows append one unit, the tag first; nothing else changes. An ENCODE that is not refused is the run
of its control units and then its response, a PASSTHRU its one unit and then its idle outputs (rules R130 and R137). That the rows
give no outputs of their own is the model's reading (notes/assumptions/7.md). -/
def Obligations.UnitRowsAppendOneUnit : Prop :=
  ∀ (s : State) (w : Byte),
    exec (.outUnitCtrl w) s = .next { s with out := s.out ++ [s.cfg.tagCtrl, w] } ∧
    exec (.outUnitPt w) s = .next { s with out := s.out ++ [s.cfg.tagPt, w] } ∧
    (∃ t, exec (.outUnitPt w) s = .next t ∧
      exec (.passthru w) s = .next { t with results := t.results ++ [⟨none, .none, none⟩] }) ∧
    (∀ (c d : Byte) (p : List Byte), p.length ≤ s.cfg.maxPayload →
      ∃ t, execAll ((frameBytes s.cfg c d p).map .outUnitCtrl) s = .next t ∧
        exec (.encode c d p) s = .next { t with results := t.results ++ [⟨none, .none, some .ok⟩] })

/-- 30_encoding.md rule R65 and 93_implementation_defined.md I5: a unit with a reserved tag is refused. -/
def Obligations.ReservedUnitIsRefused : Prop :=
  ∀ (s : State) (tag w : Byte), exec (.outUnitReserved tag w) s = .refused (.reservedTag tag)

/-- Rule R138: `OUT` is the concatenation, in order, of what each operation emits. -/
def Obligations.OutIsInCallOrder : Prop :=
  (∀ (ops : List Instr) (s t : State), execAll ops s = .next t → t.out = s.out ++ ops.flatMap (emittedBy s.cfg)) ∧
    (∀ (cfg : Config) (c d : Byte) (p : List Byte), p.length ≤ cfg.maxPayload →
      (emittedBy cfg (.encode c d p)).length = 2 * (1 + (escapeAll cfg
        ([declaredLength p.length, c, d] ++ p ++ [frameChecksum cfg c d p])).length))

/-- Rule R140: every tag is one of the two, and the host's two channels are the ENCODEs' frames and the PASSTHRU operands. -/
def Obligations.HostDemultiplexesBothChannels : Prop :=
  ∀ (ops : List Instr) (s t : State), s.cfg.wf → ops.all isOperation = true → unitAligned s.cfg s.out →
    execAll ops s = .next t →
    unitAligned s.cfg t.out ∧
      demux s.cfg.tagCtrl t.out = demux s.cfg.tagCtrl s.out ++ ops.flatMap (encodedBy s.cfg) ∧
      demux s.cfg.tagPt t.out = demux s.cfg.tagPt s.out ++ ops.flatMap forwardedBy

/-- Rule R141: from an empty `OUT`, the control channel holds `HEADER` once per successful ENCODE, as that frame's first byte. -/
def Obligations.HeaderMarksFrameStartsOnly : Prop :=
  (∀ (ops : List Instr) (s t : State), s.cfg.wf → ops.all isOperation = true → s.out = [] →
    execAll ops s = .next t →
    (demux s.cfg.tagCtrl t.out).count s.cfg.header = (ops.filter (encodes s.cfg)).length) ∧
  (∀ (cfg : Config) (c d : Byte) (p : List Byte), cfg.wf →
    ∃ rest, frameBytes cfg c d p = cfg.header :: rest ∧ cfg.header ∉ rest)

/-- 40_escape_checksum.md rule R83: `HEADER` never appears in an `EscAll(xs)`. -/
def Obligations.EscapedBytesExcludeHeader : Prop :=
  ∀ (cfg : Config) (v : Byte) (xs : List Byte), cfg.header ≠ cfg.esc → cfg.sub ≠ cfg.header →
    cfg.header ∉ escapeByte cfg v ∧ cfg.header ∉ escapeAll cfg xs

/-- Rule R84: decoding `EscAll(xs)` returns `xs`. -/
def Obligations.UnescapeInvertsEscape : Prop :=
  ∀ (cfg : Config) (xs : List Byte), cfg.header ≠ cfg.esc → cfg.sub ≠ cfg.header → cfg.sub ≠ cfg.esc →
    unescapeAll cfg (escapeAll cfg xs) = some xs

/-- Rule R86: the incremental form of the checksum; reducing once at the end gives the same, and so does any other order of
accumulation. -/
def Obligations.ChecksumIsIncremental : Prop :=
  (∀ (start : Byte) (xs : List Byte), xs.foldl accumulate start = sumBytes (start :: xs)) ∧
    (∀ xs : List Byte, sumBytes xs = BitVec.ofNat 8 (xs.map BitVec.toNat).sum) ∧
    (∀ (cfg : Config) (c d : Byte) (p : List Byte),
      ([declaredLength p.length, c, d] ++ p).foldl accumulate cfg.header = frameChecksum cfg c d p) ∧
    (∀ (start : Byte) (xs ys : List Byte), xs.Perm ys → xs.foldl accumulate start = ys.foldl accumulate start)

/-- Rule R87: what the checksum detects and what it does not. -/
def Obligations.ChecksumErrorDetection : Prop :=
  (∀ (xs ys : List Byte) (v w : Byte), sumBytes (xs ++ w :: ys) = sumBytes (xs ++ v :: ys) + (w - v) ∧
    (w ≠ v → sumBytes (xs ++ w :: ys) ≠ sumBytes (xs ++ v :: ys))) ∧
  (∀ (v : Byte) (k : Nat), k < 8 → 1#8 <<< k ≠ 0#8 ∧
    ((v ^^^ (1#8 <<< k)) - v = 1#8 <<< k ∨ (v ^^^ (1#8 <<< k)) - v = -(1#8 <<< k))) ∧
  (∀ (xs ys zs : List Byte) (v w e : Byte),
    sumBytes (xs ++ (v + e) :: ys ++ (w - e) :: zs) = sumBytes (xs ++ v :: ys ++ w :: zs)) ∧
  (∀ xs ys : List Byte, xs.Perm ys → sumBytes xs = sumBytes ys)

/-- Rule R143: the size bounds of a frame, when each is reached, and the two bytes of `OUT` that carry each of its bytes. -/
def Obligations.FrameSizeBounds : Prop :=
  ∀ (cfg : Config) (c d : Byte) (p fields : List Byte),
    fields = [declaredLength p.length, c, d] ++ p ++ [frameChecksum cfg c d p] →
    p.length + 5 ≤ (frameBytes cfg c d p).length ∧ (frameBytes cfg c d p).length ≤ 2 * p.length + 9 ∧
      ((∀ v ∈ fields, v ≠ cfg.header ∧ v ≠ cfg.esc) → (frameBytes cfg c d p).length = p.length + 5) ∧
      ((∀ v ∈ fields, v = cfg.header ∨ v = cfg.esc) → (frameBytes cfg c d p).length = 2 * p.length + 9) ∧
      (p.length ≤ 253 → (frameBytes cfg c d p).length ≤ 515) ∧
      (p.length ≤ cfg.maxPayload → (emittedBy cfg (.encode c d p)).length = 2 * (frameBytes cfg c d p).length)

/-- Rule R68: the classification of an inbound wire byte against the position, in its order of precedence. -/
def Obligations.InboundPrecedence : Prop :=
  ∀ (cfg : Config) (pos : Position) (b : Byte), cfg.wf →
    (b = cfg.header → decodeInbound cfg pos [b] = .ok (.inHeader, [])) ∧
    (b ≠ cfg.header → pos.phase = .awaitHeader → decodeInbound cfg pos [b] = .ok (.inUnsynced b, [])) ∧
    (pos.phase ≠ .awaitHeader → pos.esc = false → b = cfg.esc →
      decodeInbound cfg pos [b] = .ok (.inEscPrefix, [])) ∧
    (pos.phase ≠ .awaitHeader → pos.esc = true → b = cfg.sub → decodeInbound cfg pos [b] = .ok (.inEscSub, [])) ∧
    (pos.phase ≠ .awaitHeader → pos.esc = true → b = cfg.esc → decodeInbound cfg pos [b] = .ok (.inEscEsc, [])) ∧
    (pos.phase ≠ .awaitHeader → pos.esc = true → b ≠ cfg.header → b ≠ cfg.sub → b ≠ cfg.esc →
      decodeInbound cfg pos [b] = .ok (.inEscBad b, [])) ∧
    (b ≠ cfg.header → pos.phase ≠ .awaitHeader → pos.esc = false → b ≠ cfg.esc →
      decodeInbound cfg pos [b] = .ok (.inLiteral b, []))

/-- Rules R68 and R100: a FEED is the row that its byte is classified as at the present position. -/
def Obligations.FeedIsItsInboundRow : Prop :=
  ∀ (s : State) (b : Byte), ∃ i, decodeInbound s.cfg s.position [b] = .ok (i, []) ∧ exec (.feed b) s = exec i s

/-- Rules R62 and R100: an inbound row acts as the FEEDs of its wire bytes, the model's reading of the rows
(notes/assumptions/8.md). -/
def Obligations.InboundRowActsAsItsWireBytes : Prop :=
  ∀ (s : State) (i : Instr) (bytes : List Byte), encode s.cfg s.position i = .inbound bytes →
    exec i s = execAll (feeds bytes) s

/-- Rules R62, R66, R68 and R69: decoding an encoding gives the instruction back, with every operand at every value. -/
def Obligations.DecodeInvertsEncode : Prop :=
  ∀ (cfg : Config) (pos : Position) (i : Instr), cfg.wf → wellFormed cfg pos i = true →
    decode cfg pos (encode cfg pos i) = .ok (i, none)

/-- Rules R68 and R69: every run of inbound bytes begins with exactly one well-formed row, whose encoding it is. -/
def Obligations.InboundBytesHaveOneReading : Prop :=
  ∀ (cfg : Config) (pos : Position) (b : Byte) (bs : List Byte), cfg.wf →
    ∃ i bytes rest, decodeInbound cfg pos (b :: bs) = .ok (i, rest) ∧ wellFormed cfg pos i = true ∧
      encode cfg pos i = .inbound bytes ∧ bytes ++ rest = b :: bs

/-- Rules R64 and R66: words written out from the encodings decode to what they stand for. The encoding space of a bare table word
(the two `decodeTableWord` clauses) is the model's choice (notes/assumptions/5.md). -/
def Obligations.SampleWordsDecode : Prop :=
  decodeWord 0b0011110001#10 = .ok (.feed 0xF1#8) ∧ decodeWord 0b1001000001#10 = .ok (.passthru 0x41#8) ∧
    decodeWord 0b1100000000#10 = .ok .reset ∧ decodeWord 0b1100000001#10 = .error (.resetOperand 0x01#8) ∧
    decodeUnit Config.defaults 0x00#8 0xF1#8 = .outUnitCtrl 0xF1#8 ∧
    decodeUnit Config.defaults 0x01#8 0x00#8 = .outUnitPt 0x00#8 ∧
    decodeUnit Config.defaults 0x02#8 0x00#8 = .outUnitReserved 0x02#8 0x00#8 ∧
    decodeTableWord 16 0x1A20 = some .inEscSub ∧ decodeTableWord 8 0xF1 = some .inHeader

/-- Rules R6 and R52: a step runs the instruction that the head of the schedule decodes to at the present position, with the rest of
the transaction back at the head. A unit of the multiplexer is internal to an operation, and no environment may issue it (rules R135
and R170): it is refused (notes/assumptions/7.md). -/
def Obligations.StepRunsTheDecodedInstruction : Prop :=
  ∀ (s : State) (r : Raw) (rest : List Slot) (i : Instr) (more : Option Raw), s.cfg.wf →
    s.requests = .one r :: rest → decode s.cfg s.position r = .ok (i, more) →
    (isInternal i = false → step s = exec i { s with requests := more.toList.map Slot.one ++ rest }) ∧
      (isInternal i = true → step s = .refused .internalUnit)

/-- What a step refuses: a configuration that breaks rule R8, a RESET word with an operand (rule R66, I14), overlapping FEEDs or a
FEED overlapping a RESET (rule R184), and a unit of the multiplexer that the environment issues (rules R135 and R170). -/
def Obligations.StepRefusesWhatTheSpecRefuses : Prop :=
  ∀ (s : State) (rest : List Slot),
    (¬ s.cfg.wf → step s = .refused .badConfig) ∧
    (∀ b : Byte, s.cfg.wf → b ≠ 0#8 → s.requests = .one (.word (requestWord 3#2 b)) :: rest →
      step s = .refused (.undecodable (.resetOperand b))) ∧
    (∀ b c : Byte, s.cfg.wf →
      s.requests = .overlap (.word (requestWord 0#2 b)) (.word (requestWord 0#2 c)) :: rest ∨
      s.requests = .overlap (.word (requestWord 0#2 b)) (.word (requestWord 3#2 0#8)) :: rest ∨
      s.requests = .overlap (.word (requestWord 3#2 0#8)) (.word (requestWord 0#2 b)) :: rest →
      step s = .refused .overlap) ∧
    (∀ w : Byte, s.cfg.wf →
      s.requests = .one (.unit s.cfg.tagCtrl w) :: rest ∨ s.requests = .one (.unit s.cfg.tagPt w) :: rest →
      step s = .refused .internalUnit)

/-- Rule R186: a transaction that arrives while another is in progress, where their overlap has a meaning, is held until the other
has completed. -/
def Obligations.OverlappingRequestIsHeld : Prop :=
  ∀ (s : State) (a b : Raw) (rest : List Slot), s.requests = .overlap a b :: rest → overlapConflict a b = false →
    step s = step { s with requests := .one a :: .one b :: rest }

/-- Rules R6, R29, R31 and R32: a step changes the state only by the four operations (an inbound row by the FEEDs of its bytes), and
none changes a parameter, takes a byte out of `OUT`, or changes a result that has been given. -/
def Obligations.StepOnlyAppends : Prop :=
  ∀ s t : State, step s = .next t →
    (s.requests = [] ∧ t = s ∨
      ∃ ops : List Instr, ops.all isOperation = true ∧ execAll ops { s with requests := t.requests } = .next t) ∧
    t.cfg = s.cfg ∧ (∃ bytes, t.out = s.out ++ bytes) ∧ (∃ rs, t.results = s.results ++ rs)

/-- The machine's invariant is kept by every step. -/
def Obligations.StepKeepsInvariant : Prop :=
  ∀ s t : State, Inv s → step s = .next t → Inv t

/-- The machine's invariant holds right after reset. -/
def Obligations.ResetHasInvariant : Prop := Inv State.reset

/-- Rules R50, R67 and R69: stepping through a burst of inbound bytes, row by row, gives what FEEDing its bytes one by one gives. -/
def Obligations.BurstRunsAsItsBytes : Prop :=
  ∀ (s : State) (b : Byte) (bs : List Byte), s.cfg.wf →
    Host.Core.run core (b :: bs).length { s with requests := [.one (.inbound (b :: bs))] } =
      execAll (feeds (b :: bs)) { s with requests := [] }

/-- Rule R144: the outbound instructions leave the decoder as it is, and what they emit and answer does not depend on it or on any
earlier operation. -/
def Obligations.OutboundIgnoresDecoder : Prop :=
  ∀ (i : Instr) (s u t : State), isOutbound i = true → u.cfg = s.cfg → exec i s = .next t →
    t.dec = s.dec ∧ ∃ w bytes rs, exec i u = .next w ∧ w.dec = u.dec ∧ t.out = s.out ++ bytes ∧ w.out = u.out ++ bytes ∧
      t.results = s.results ++ rs ∧ w.results = u.results ++ rs

/-- 60_exceptions.md rules R161 and R162, 10_state.md rule R20, 93_implementation_defined.md I7: the codes; event code 7 is
reserved. -/
def Obligations.OutputCodes : Prop :=
  (∀ e, eventOfCode (eventCode e) = some e) ∧ eventOfCode 7#3 = none ∧
    (∀ c e, eventOfCode c = some e → eventCode e = c) ∧
    eventCode .none = 0#3 ∧ eventCode .frame = 1#3 ∧ eventCode .unsyncedByte = 2#3 ∧ eventCode .checksumMismatch = 3#3 ∧
    eventCode .badEscape = 4#3 ∧ eventCode .bufferOverflow = 5#3 ∧ eventCode .resync = 6#3 ∧
    respCode .ok = 0#1 ∧ respCode .payloadTooLarge = 1#1 ∧
    phaseCode .awaitHeader = 0#2 ∧ phaseCode .awaitLength = 1#2 ∧ phaseCode .body = 2#2
end

