-- ==== Sys2Proof/Laws/State.lean ====
section
/-! SUPPORT. One lemma per field per update of the state records, true by rfl. -/

namespace Sys2Proof.Machine

/-! ### State.finish -/

@[simp] theorem State.finish_cfg (s : State) (o : Outputs) : (s.finish o).cfg = s.cfg := rfl
@[simp] theorem State.finish_dec (s : State) (o : Outputs) : (s.finish o).dec = s.dec := rfl
@[simp] theorem State.finish_out (s : State) (o : Outputs) : (s.finish o).out = s.out := rfl
@[simp] theorem State.finish_results (s : State) (o : Outputs) : (s.finish o).results = s.results ++ [o] := rfl
@[simp] theorem State.finish_requests (s : State) (o : Outputs) : (s.finish o).requests = s.requests := rfl

/-! ### State.decoded -/

@[simp] theorem State.decoded_cfg (s : State) (d : Decoder) (o : Outputs) : (s.decoded d o).cfg = s.cfg := rfl
@[simp] theorem State.decoded_dec (s : State) (d : Decoder) (o : Outputs) : (s.decoded d o).dec = d := rfl
@[simp] theorem State.decoded_out (s : State) (d : Decoder) (o : Outputs) : (s.decoded d o).out = s.out := rfl
@[simp] theorem State.decoded_results (s : State) (d : Decoder) (o : Outputs) : (s.decoded d o).results = s.results ++ [o] := rfl
@[simp] theorem State.decoded_requests (s : State) (d : Decoder) (o : Outputs) : (s.decoded d o).requests = s.requests := rfl

/-! ### State.emit -/

@[simp] theorem State.emit_cfg (s : State) (b : Byte) : (s.emit b).cfg = s.cfg := rfl
@[simp] theorem State.emit_dec (s : State) (b : Byte) : (s.emit b).dec = s.dec := rfl
@[simp] theorem State.emit_out (s : State) (b : Byte) : (s.emit b).out = s.out ++ [b] := rfl
@[simp] theorem State.emit_results (s : State) (b : Byte) : (s.emit b).results = s.results := rfl
@[simp] theorem State.emit_requests (s : State) (b : Byte) : (s.emit b).requests = s.requests := rfl

/-! ### State.muxCtrl -/

@[simp] theorem State.muxCtrl_cfg (s : State) (b : Byte) : (s.muxCtrl b).cfg = s.cfg := rfl
@[simp] theorem State.muxCtrl_dec (s : State) (b : Byte) : (s.muxCtrl b).dec = s.dec := rfl
@[simp] theorem State.muxCtrl_results (s : State) (b : Byte) : (s.muxCtrl b).results = s.results := rfl
@[simp] theorem State.muxCtrl_requests (s : State) (b : Byte) : (s.muxCtrl b).requests = s.requests := rfl
@[simp] theorem State.muxCtrl_out (s : State) (b : Byte) : (s.muxCtrl b).out = s.out ++ [s.cfg.tagCtrl, b] := by
  simp [State.muxCtrl, State.emit]

/-! ### State.muxPt -/

@[simp] theorem State.muxPt_cfg (s : State) (b : Byte) : (s.muxPt b).cfg = s.cfg := rfl
@[simp] theorem State.muxPt_dec (s : State) (b : Byte) : (s.muxPt b).dec = s.dec := rfl
@[simp] theorem State.muxPt_results (s : State) (b : Byte) : (s.muxPt b).results = s.results := rfl
@[simp] theorem State.muxPt_requests (s : State) (b : Byte) : (s.muxPt b).requests = s.requests := rfl
@[simp] theorem State.muxPt_out (s : State) (b : Byte) : (s.muxPt b).out = s.out ++ [s.cfg.tagPt, b] := by
  simp [State.muxPt, State.emit]

/-! ### State.requeue -/

@[simp] theorem State.requeue_cfg (s : State) (r : Option Raw) : (s.requeue r).cfg = s.cfg := by
  cases r <;> rfl
@[simp] theorem State.requeue_dec (s : State) (r : Option Raw) : (s.requeue r).dec = s.dec := by
  cases r <;> rfl
@[simp] theorem State.requeue_out (s : State) (r : Option Raw) : (s.requeue r).out = s.out := by
  cases r <;> rfl
@[simp] theorem State.requeue_results (s : State) (r : Option Raw) : (s.requeue r).results = s.results := by
  cases r <;> rfl
@[simp] theorem State.requeue_requests (s : State) (r : Option Raw) :
    (s.requeue r).requests = r.toList.map Slot.one ++ s.requests := by
  cases r <;> rfl

/-! ### State.position -/

@[simp] theorem State.position_phase (s : State) : s.position.phase = s.dec.phase := rfl
@[simp] theorem State.position_esc (s : State) : s.position.esc = s.dec.esc := rfl
@[simp] theorem State.position_idx (s : State) : s.position.idx = s.dec.idx := rfl

/-! ### Decoder.setEsc and Decoder.clearEsc -/

@[simp] theorem Decoder.setEsc_phase (d : Decoder) : d.setEsc.phase = d.phase := rfl
@[simp] theorem Decoder.setEsc_esc (d : Decoder) : d.setEsc.esc = true := rfl
@[simp] theorem Decoder.setEsc_csum (d : Decoder) : d.setEsc.csum = d.csum := rfl
@[simp] theorem Decoder.setEsc_len (d : Decoder) : d.setEsc.len = d.len := rfl
@[simp] theorem Decoder.setEsc_idx (d : Decoder) : d.setEsc.idx = d.idx := rfl
@[simp] theorem Decoder.setEsc_buf (d : Decoder) : d.setEsc.buf = d.buf := rfl
@[simp] theorem Decoder.clearEsc_phase (d : Decoder) : d.clearEsc.phase = d.phase := rfl
@[simp] theorem Decoder.clearEsc_esc (d : Decoder) : d.clearEsc.esc = false := rfl
@[simp] theorem Decoder.clearEsc_csum (d : Decoder) : d.clearEsc.csum = d.csum := rfl
@[simp] theorem Decoder.clearEsc_len (d : Decoder) : d.clearEsc.len = d.len := rfl
@[simp] theorem Decoder.clearEsc_idx (d : Decoder) : d.clearEsc.idx = d.idx := rfl
@[simp] theorem Decoder.clearEsc_buf (d : Decoder) : d.clearEsc.buf = d.buf := rfl

/-! ### Decoder.error: taking a decoder error -/

@[simp] theorem Decoder.error_phase (d : Decoder) (ev : DecEvent) : (d.error ev).1.phase = Phase.awaitHeader := rfl
@[simp] theorem Decoder.error_esc (d : Decoder) (ev : DecEvent) : (d.error ev).1.esc = false := rfl
@[simp] theorem Decoder.error_csum (d : Decoder) (ev : DecEvent) : (d.error ev).1.csum = d.csum := rfl
@[simp] theorem Decoder.error_len (d : Decoder) (ev : DecEvent) : (d.error ev).1.len = d.len := rfl
@[simp] theorem Decoder.error_idx (d : Decoder) (ev : DecEvent) : (d.error ev).1.idx = d.idx := rfl
@[simp] theorem Decoder.error_buf (d : Decoder) (ev : DecEvent) : (d.error ev).1.buf = d.buf := rfl
@[simp] theorem Decoder.error_outputs (d : Decoder) (ev : DecEvent) : (d.error ev).2 = Outputs.signal ev := rfl

/-! ### Decoder.frameStart: a header byte -/

@[simp] theorem Decoder.frameStart_phase (cfg : Config) (d : Decoder) : (d.frameStart cfg).1.phase = Phase.awaitLength := rfl
@[simp] theorem Decoder.frameStart_esc (cfg : Config) (d : Decoder) : (d.frameStart cfg).1.esc = false := rfl
@[simp] theorem Decoder.frameStart_csum (cfg : Config) (d : Decoder) : (d.frameStart cfg).1.csum = cfg.header := rfl
@[simp] theorem Decoder.frameStart_len (cfg : Config) (d : Decoder) : (d.frameStart cfg).1.len = d.len := rfl
@[simp] theorem Decoder.frameStart_idx (cfg : Config) (d : Decoder) : (d.frameStart cfg).1.idx = 0 := rfl
@[simp] theorem Decoder.frameStart_buf (cfg : Config) (d : Decoder) : (d.frameStart cfg).1.buf = d.buf := rfl

/-! ### Outputs -/

@[simp] theorem Outputs.idle_frame : Outputs.idle.frame = none := rfl
@[simp] theorem Outputs.idle_event : Outputs.idle.event = DecEvent.none := rfl
@[simp] theorem Outputs.idle_resp : Outputs.idle.resp = none := rfl
@[simp] theorem Outputs.signal_frame (ev : DecEvent) : (Outputs.signal ev).frame = none := rfl
@[simp] theorem Outputs.signal_event (ev : DecEvent) : (Outputs.signal ev).event = ev := rfl
@[simp] theorem Outputs.signal_resp (ev : DecEvent) : (Outputs.signal ev).resp = none := rfl
@[simp] theorem Outputs.deliver_frame (f : Frame) : (Outputs.deliver f).frame = some f := rfl
@[simp] theorem Outputs.deliver_event (f : Frame) : (Outputs.deliver f).event = DecEvent.frame := rfl
@[simp] theorem Outputs.deliver_resp (f : Frame) : (Outputs.deliver f).resp = none := rfl
@[simp] theorem Outputs.respond_frame (r : EncResp) : (Outputs.respond r).frame = none := rfl
@[simp] theorem Outputs.respond_event (r : EncResp) : (Outputs.respond r).event = DecEvent.none := rfl
@[simp] theorem Outputs.respond_resp (r : EncResp) : (Outputs.respond r).resp = some r := rfl

end Sys2Proof.Machine
end

