-- ==== Sys2Proof/Laws/Memory.lean ====
section
/-! SUPPORT. The decode buffer: read after write, the canonical form, and what a slice reads. -/

namespace Sys2Proof.Machine

/-- A write is read back. -/
@[simp] theorem bufLookup_bufWrite_same (m : Memory) (i : Nat) (v : Byte) : bufLookup (bufWrite m i v) i = some v := by
  induction m with
  | nil => simp [bufWrite, bufLookup]
  | cons c m ih =>
    obtain ⟨a, w⟩ := c
    simp only [bufWrite]
    split
    · simp [bufLookup]
    · split
      · simp [bufLookup]
      · rename_i h
        have : a ≠ i := fun e => h e.symm
        simp [bufLookup, this, ih]

/-- A write leaves every other entry alone. -/
theorem bufLookup_bufWrite_other (m : Memory) {i j : Nat} (v : Byte) (h : j ≠ i) :
    bufLookup (bufWrite m i v) j = bufLookup m j := by
  induction m with
  | nil => simp [bufWrite, bufLookup, h.symm]
  | cons c m ih =>
    obtain ⟨a, w⟩ := c
    simp only [bufWrite]
    split
    · simp [bufLookup, h.symm]
    · split
      · rename_i e
        subst e
        simp [bufLookup, h.symm]
      · simp [bufLookup, ih]

/-- What a write lists was listed before, or is the entry written. -/
theorem mem_bufWrite {m : Memory} {i : Nat} {v : Byte} {c : Host.Cell} (h : c ∈ bufWrite m i v) : c = (i, v) ∨ c ∈ m := by
  induction m with
  | nil => simpa [bufWrite] using h
  | cons e m ih =>
    obtain ⟨a, w⟩ := e
    simp only [bufWrite] at h
    split at h
    · simpa using h
    · split at h
      · rcases List.mem_cons.1 h with h | h
        · exact .inl h
        · exact .inr (List.mem_cons_of_mem _ h)
      · rcases List.mem_cons.1 h with h | h
        · exact .inr (h ▸ List.mem_cons_self ..)
        · exact (ih h).imp id (List.mem_cons_of_mem _)

/-- A write keeps the canonical form. -/
theorem bufWrite_wf {m : Memory} (i : Nat) (v : Byte) (h : Memory.wf m) : Memory.wf (bufWrite m i v) := by
  induction m with
  | nil => simp [bufWrite, Memory.wf]
  | cons c m ih =>
    obtain ⟨a, w⟩ := c
    obtain ⟨ha, hm⟩ := List.pairwise_cons.1 h
    simp only [bufWrite]
    split
    · rename_i hia
      refine List.pairwise_cons.2 ⟨fun c hc => ?_, h⟩
      rcases List.mem_cons.1 hc with rfl | hc
      · exact hia
      · exact Nat.lt_trans hia (ha c hc)
    · split
      · rename_i e
        exact List.pairwise_cons.2 ⟨fun c hc => e ▸ ha c hc, hm⟩
      · rename_i hn he
        refine List.pairwise_cons.2 ⟨fun c hc => ?_, ih hm⟩
        rcases mem_bufWrite hc with rfl | hc
        · exact Nat.lt_of_le_of_ne (Nat.le_of_not_lt hn) (fun e => he e.symm)
        · exact ha c hc

/-- The memory right after reset is in canonical form. -/
theorem reset_buf_wf : Memory.wf State.reset.dec.buf := List.Pairwise.nil

/-- A read of a written entry. -/
theorem bufRead_of_lookup {cap : Nat} {m : Memory} {i : Nat} {v : Byte} (h : i < cap) (hv : bufLookup m i = some v) :
    bufRead cap m i = some v := by simp [bufRead, h, hv]

/-- A read after a write to the same entry. -/
theorem bufRead_bufWrite_same {cap : Nat} (m : Memory) {i : Nat} (v : Byte) (h : i < cap) :
    bufRead cap (bufWrite m i v) i = some v := by simp [bufRead, h]

/-- A write leaves every other entry's read alone. -/
theorem bufRead_bufWrite_other (cap : Nat) (m : Memory) {i j : Nat} (v : Byte) (h : j ≠ i) :
    bufRead cap (bufWrite m i v) j = bufRead cap m j := by simp [bufRead, bufLookup_bufWrite_other m v h]

/-- All a slice can do: if it answers bytes, there are as many as asked for, and each is the read of its entry. -/
theorem bufSlice_ok {cap : Nat} {m : Memory} {i n : Nat} {bytes : List Byte} (h : bufSlice cap m i n = .ok bytes) :
    bytes.length = n ∧ ∀ k, k < n → bufRead cap m (i + k) = bytes[k]? := by
  induction n generalizing i bytes with
  | zero =>
    simp only [bufSlice, Except.ok.injEq] at h
    subst h
    simp
  | succ n ih =>
    simp only [bufSlice] at h
    split at h
    · cases h
    · rename_i v hv
      split at h
      · cases h
      · rename_i vs hvs
        cases h
        obtain ⟨hl, hr⟩ := ih hvs
        refine ⟨by simp [hl], fun k hk => ?_⟩
        cases k with
        | zero => simpa using hv
        | succ k =>
          have := hr k (by omega)
          rw [show i + (k + 1) = i + 1 + k by omega, this]
          simp

/-- A slice inside the buffer answers. -/
theorem bufSlice_total {cap : Nat} (m : Memory) {i n : Nat} (h : i + n ≤ cap) : ∃ bytes, bufSlice cap m i n = .ok bytes := by
  induction n generalizing i with
  | zero => exact ⟨[], rfl⟩
  | succ n ih =>
    obtain ⟨bytes, hb⟩ := ih (i := i + 1) (by omega)
    have hi : i < cap := by omega
    exact ⟨(bufLookup m i).getD (Config.bufContents i) :: bytes, by simp [bufSlice, bufRead, hi, hb]⟩

/-- A slice of written entries answers what was written. -/
theorem bufSlice_of_lookup {cap : Nat} {m : Memory} {i : Nat} {bytes : List Byte} (hc : i + bytes.length ≤ cap)
    (h : ∀ k, k < bytes.length → bufLookup m (i + k) = bytes[k]?) : bufSlice cap m i bytes.length = .ok bytes := by
  induction bytes generalizing i with
  | nil => rfl
  | cons v vs ih =>
    simp only [List.length_cons] at hc h ⊢
    have h0 : bufLookup m i = some v := by simpa using h 0 (by omega)
    have hv := ih (i := i + 1) (by omega) fun k hk => by
      have := h (k + 1) (by omega)
      rw [show i + 1 + k = i + (k + 1) by omega, this]
      simp
    have hr : bufRead cap m i = some v := bufRead_of_lookup (by omega) h0
    simp [bufSlice, hr, hv]

end Sys2Proof.Machine
end

