-- ==== Sys2Proof/Laws/Decoder.lean ====
section
/-! SUPPORT. What each decoder operation can do, once: the proofs about FEED cite these and unfold none of them. -/

namespace Sys2Proof.Machine

/-- All the checksum byte can do (rules R110 and R111). -/
theorem Decoder.check_cases {cfg : Config} {d d' : Decoder} {v : Byte} {o : Outputs} (h : d.check cfg v = .ok (d', o)) :
    (v = d.csum ∧ d' = { d with phase := .awaitHeader } ∧
      ∃ bytes, bufSlice cfg.bufCap d.buf 0 d.len.toNat = .ok bytes ∧ o = .deliver ⟨d.len, bytes⟩) ∨
    (v ≠ d.csum ∧ d' = { d with phase := .awaitHeader, esc := false } ∧ o = .signal .checksumMismatch) := by
  simp only [Decoder.check] at h
  split at h
  · rename_i hv
    split at h
    · cases h
    · rename_i bytes hb
      cases h
      exact .inl ⟨hv, rfl, bytes, hb, rfl⟩
  · rename_i hv
    cases h
    exact .inr ⟨hv, rfl, rfl⟩

/-- All the placing of a logical byte can do (rules R108 to R112). -/
theorem Decoder.place_cases {cfg : Config} {d d' : Decoder} {v : Byte} {o : Outputs} (h : d.place cfg v = .ok (d', o)) :
    (d.phase = .awaitHeader ∧ d' = d ∧ o = .signal .unsyncedByte) ∨
    (d.phase = .awaitLength ∧ d' = { d with phase := .body, csum := d.csum + v, len := v, idx := 0 } ∧ o = .idle) ∨
    (d.phase = .body ∧ d.idx < d.len.toNat ∧ d.idx < cfg.bufCap ∧
      d' = { d with csum := d.csum + v, idx := d.idx + 1, buf := bufWrite d.buf d.idx v } ∧ o = .idle) ∨
    (d.phase = .body ∧ d.idx < d.len.toNat ∧ cfg.bufCap ≤ d.idx ∧
      d' = { d with phase := .awaitHeader, esc := false } ∧ o = .signal .bufferOverflow) ∨
    (d.phase = .body ∧ ¬ d.idx < d.len.toNat ∧ d.check cfg v = .ok (d', o)) := by
  unfold Decoder.place at h
  split at h
  · rename_i hp
    cases h
    exact .inl ⟨hp, rfl, rfl⟩
  · rename_i hp
    cases h
    exact .inr (.inl ⟨hp, rfl, rfl⟩)
  · rename_i hp
    split at h
    · rename_i hi
      split at h
      · rename_i hc
        cases h
        exact .inr (.inr (.inr (.inl ⟨hp, hi, hc, rfl, rfl⟩)))
      · rename_i hc
        cases h
        exact .inr (.inr (.inl ⟨hp, hi, Nat.lt_of_not_le hc, rfl, rfl⟩))
    · rename_i hi
      exact .inr (.inr (.inr (.inr ⟨hp, hi, h⟩)))

/-- Placing a logical byte answers wherever the index bounds hold. -/
theorem Decoder.place_total {cfg : Config} {d : Decoder} (v : Byte) (hd : IndexInv cfg d) :
    ∃ d' o, d.place cfg v = .ok (d', o) := by
  rcases hp : d.phase with _ | _ | _
  · exact ⟨_, _, by simp only [Decoder.place, hp]; rfl⟩
  · exact ⟨_, _, by simp only [Decoder.place, hp]; rfl⟩
  · obtain ⟨hl, hc⟩ := hd hp
    by_cases hi : d.idx < d.len.toNat
    · by_cases hb : cfg.bufCap ≤ d.idx
      · exact ⟨_, _, by simp only [Decoder.place, hp, hi, hb, if_true]; rfl⟩
      · exact ⟨_, _, by simp only [Decoder.place, hp, hi, hb, if_true, if_false]; rfl⟩
    · by_cases hv : v = d.csum
      · obtain ⟨bytes, hs⟩ := bufSlice_total (cap := cfg.bufCap) d.buf (i := 0) (n := d.len.toNat) (by omega)
        exact ⟨_, _, by simp only [Decoder.place, Decoder.check, hp, hi, hv, hs, if_true, if_false]; rfl⟩
      · exact ⟨_, _, by simp only [Decoder.place, Decoder.check, hp, hi, hv, if_false]; rfl⟩

/-- A byte that resolves to a logical byte is placed, with no escape pending (rules R104 to R107). -/
theorem Decoder.feed_of_resolves {cfg : Config} {d : Decoder} {b v : Byte} (hp : d.phase ≠ .awaitHeader)
    (h : Resolves cfg d.esc b v) : d.feed cfg b = d.clearEsc.place cfg v := by
  obtain ⟨hb, h⟩ := h
  rcases h with ⟨he, hne, rfl⟩ | ⟨he, hs, rfl⟩ | ⟨he, hns, hs, rfl⟩ | ⟨he, hns, hne, hl, rfl⟩
  · have : d.clearEsc = d := by cases d; simp_all [Decoder.clearEsc]
    simp [Decoder.feed, hb, hp, he, hne, this]
  · subst hs
    simp [Decoder.feed, Decoder.resolve, unescapeByte, hb, hp, he]
  · subst hs
    simp [Decoder.feed, Decoder.resolve, unescapeByte, hb, hp, he, hns]
  · simp [Decoder.feed, Decoder.resolve, unescapeByte, hb, hp, he, hns, hne, hl]

/-- What a bad escape does under `Discard` (rule R106). -/
theorem Decoder.feed_of_badEscape {cfg : Config} {d : Decoder} {b : Byte} (hp : d.phase ≠ .awaitHeader)
    (h : IsBadEscape cfg d b) (hl : cfg.badEscape = .discard) : d.feed cfg b = .ok (d.clearEsc.error .badEscape) := by
  obtain ⟨he, hns, hne, hb⟩ := h
  simp [Decoder.feed, Decoder.resolve, unescapeByte, hb, hp, he, hns, hne, hl]

/-- All one inbound wire byte can be, in the order of 30_encoding.md rule R68. -/
theorem Decoder.feed_split (cfg : Config) (d : Decoder) (b : Byte) :
    (b = cfg.header ∧ d.feed cfg b = .ok (d.frameStart cfg)) ∨
    (b ≠ cfg.header ∧ d.phase = .awaitHeader ∧ d.feed cfg b = .ok (d, .signal .unsyncedByte)) ∨
    (b ≠ cfg.header ∧ d.phase ≠ .awaitHeader ∧ d.esc = false ∧ b = cfg.esc ∧ d.feed cfg b = .ok (d.setEsc, .idle)) ∨
    (d.phase ≠ .awaitHeader ∧ IsBadEscape cfg d b ∧ cfg.badEscape = .discard ∧
      d.feed cfg b = .ok (d.clearEsc.error .badEscape)) ∨
    (d.phase ≠ .awaitHeader ∧ ∃ v, Resolves cfg d.esc b v ∧ d.feed cfg b = d.clearEsc.place cfg v) := by
  by_cases hb : b = cfg.header
  · exact .inl ⟨hb, by simp [Decoder.feed, hb]⟩
  by_cases hp : d.phase = .awaitHeader
  · exact .inr (.inl ⟨hb, hp, by simp [Decoder.feed, hb, hp]⟩)
  rcases he : d.esc
  · by_cases hx : b = cfg.esc
    · exact .inr (.inr (.inl ⟨hb, hp, rfl, hx, by
        subst hx
        simp [Decoder.feed, hb, hp, he]⟩))
    · have hr : Resolves cfg d.esc b b := ⟨hb, .inl ⟨he, hx, rfl⟩⟩
      exact .inr (.inr (.inr (.inr ⟨hp, b, he ▸ hr, Decoder.feed_of_resolves hp hr⟩)))
  · by_cases hs : b = cfg.sub
    · have hr : Resolves cfg d.esc b cfg.header := ⟨hb, .inr (.inl ⟨he, hs, rfl⟩)⟩
      exact .inr (.inr (.inr (.inr ⟨hp, _, he ▸ hr, Decoder.feed_of_resolves hp hr⟩)))
    · by_cases hx : b = cfg.esc
      · have hr : Resolves cfg d.esc b cfg.esc := ⟨hb, .inr (.inr (.inl ⟨he, hs, hx, rfl⟩))⟩
        exact .inr (.inr (.inr (.inr ⟨hp, _, he ▸ hr, Decoder.feed_of_resolves hp hr⟩)))
      · rcases hl : cfg.badEscape
        · have hbad : IsBadEscape cfg d b := ⟨he, hs, hx, hb⟩
          exact .inr (.inr (.inr (.inl ⟨hp, hbad, rfl, Decoder.feed_of_badEscape hp hbad hl⟩)))
        · have hr : Resolves cfg d.esc b b := ⟨hb, .inr (.inr (.inr ⟨he, hs, hx, hl, rfl⟩))⟩
          exact .inr (.inr (.inr (.inr ⟨hp, b, he ▸ hr, Decoder.feed_of_resolves hp hr⟩)))

/-- One inbound wire byte answers wherever the index bounds hold. -/
theorem Decoder.feed_total {cfg : Config} {d : Decoder} (b : Byte) (hd : IndexInv cfg d) :
    ∃ d' o, d.feed cfg b = .ok (d', o) := by
  rcases Decoder.feed_split cfg d b with ⟨_, h⟩ | ⟨_, _, h⟩ | ⟨_, _, _, _, h⟩ | ⟨_, _, _, h⟩ | ⟨_, v, _, h⟩
  · exact ⟨_, _, h⟩
  · exact ⟨_, _, h⟩
  · exact ⟨_, _, h⟩
  · exact ⟨_, _, h⟩
  · obtain ⟨d', o, hp⟩ := Decoder.place_total v (d := d.clearEsc) hd
    exact ⟨d', o, h.trans hp⟩

end Sys2Proof.Machine
end

