-- ==== Sys2Proof/Laws/Operations.lean ====
section
/-! SUPPORT. The shared operations over the whole machine: FEEDs in a row, the multiplexer, the fetch, the fields of a request
word. -/

namespace Sys2Proof.Machine

/-- All a FEED on the machine can do when it answers a next state. -/
theorem State.feedByte_next {s t : State} {b : Byte} (h : s.feedByte b = .next t) :
    ∃ d o, s.dec.feed s.cfg b = .ok (d, o) ∧ t = s.decoded d o := by
  simp only [State.feedByte] at h
  split at h
  · cases h
  · rename_i d o hd
    cases h
    exact ⟨d, o, hd, rfl⟩

/-- A FEED on the machine, from what the decoder gives. -/
theorem State.feedByte_of_feed {s : State} {b : Byte} {d : Decoder} {o : Outputs} (h : s.dec.feed s.cfg b = .ok (d, o)) :
    s.feedByte b = .next (s.decoded d o) := by simp only [State.feedByte, h]

/-- The FEED of one byte, as a run. -/
@[simp] theorem feedBytes_singleton (b : Byte) (s : State) : feedBytes [b] s = s.feedByte b := by
  simp only [feedBytes]
  cases s.feedByte b <;> rfl

/-- A run of FEEDs whose first one answers. -/
theorem feedBytes_cons_next {b : Byte} {bs : List Byte} {s t : State} (h : s.feedByte b = .next t) :
    feedBytes (b :: bs) s = feedBytes bs t := by simp only [feedBytes, h]

/-- A run of FEEDs whose first part answers. -/
theorem feedBytes_append_next {xs ys : List Byte} {s t : State} (h : feedBytes xs s = .next t) :
    feedBytes (xs ++ ys) s = feedBytes ys t := by
  induction xs generalizing s with
  | nil =>
    simp only [feedBytes] at h
    cases h
    rfl
  | cons b xs ih =>
    simp only [feedBytes] at h
    split at h
    · rename_i u hu
      simpa only [List.cons_append, feedBytes_cons_next hu] using ih h
    · cases h
    · cases h

/-- FEED instructions one after another are the run of FEEDs of their bytes. -/
theorem execAll_feeds (bs : List Byte) (s : State) : execAll (feeds bs) s = feedBytes bs s := by
  induction bs generalizing s with
  | nil => rfl
  | cons b bs ih =>
    simp only [feeds, List.map_cons, execAll, feedBytes]
    show (match s.feedByte b with | .next t => _ | .fault r => _ | .refused r => _) = _
    cases s.feedByte b with
    | next t => exact ih t
    | fault r => rfl
    | refused r => rfl

/-- A run whose first part answers. -/
theorem execAll_append_next {xs ys : List Instr} {s t : State} (h : execAll xs s = .next t) :
    execAll (xs ++ ys) s = execAll ys t := by
  induction xs generalizing s with
  | nil =>
    simp only [execAll] at h
    cases h
    rfl
  | cons i xs ih =>
    simp only [execAll] at h
    split at h
    · rename_i u hu
      simp only [List.cons_append, execAll, hu]
      exact ih h
    · cases h
    · cases h

/-- All that emitting a frame does: its units join `OUT`, in order (rules R134 and R135). -/
theorem muxCtrlAll_eq (ws : List Byte) (s : State) : muxCtrlAll ws s = { s with out := s.out ++ tagged s.cfg.tagCtrl ws } := by
  induction ws generalizing s with
  | nil => simp [muxCtrlAll, tagged]
  | cons w ws ih => simp [muxCtrlAll, ih, tagged, State.muxCtrl, State.emit]

/-- All a fetch can do (rules R8, R52, R184). -/
theorem State.fetch_cases (s : State) :
    (¬ s.cfg.wf ∧ s.fetch = .refuse .badConfig) ∨
    (s.cfg.wf ∧ s.requests = [] ∧ s.fetch = .idle) ∨
    (s.cfg.wf ∧ ∃ r rest, s.requests = .one r :: rest ∧ s.fetch = { s with requests := rest }.fetchRaw r) ∨
    (s.cfg.wf ∧ ∃ a b rest, s.requests = .overlap a b :: rest ∧
      s.fetch = if overlapConflict a b then .refuse .overlap else { s with requests := .one b :: rest }.fetchRaw a) := by
  by_cases hw : s.cfg.wf
  · simp only [State.fetch, if_pos hw]
    rcases hr : s.requests with _ | ⟨r | ⟨a, b⟩, rest⟩
    · exact .inr (.inl ⟨hw, rfl, rfl⟩)
    · exact .inr (.inr (.inl ⟨hw, r, rest, rfl, rfl⟩))
    · exact .inr (.inr (.inr ⟨hw, a, b, rest, rfl, rfl⟩))
  · exact .inl ⟨hw, by simp only [State.fetch, if_neg hw]⟩

/-- A fetched transaction that decodes: it runs, unless it is a part of an operation (rule R170). -/
theorem State.fetchRaw_of_decode {s : State} {r : Raw} {i : Instr} {more : Option Raw}
    (h : decode s.cfg s.position r = .ok (i, more)) :
    s.fetchRaw r = if isInternal i then .refuse .internalUnit else .run i (s.requeue more) := by
  simp only [State.fetchRaw, h]

/-- All a fetched transaction can do: it runs the instruction it decodes to, which is no part of an operation (rule R170), and
nothing but the schedule has changed. -/
theorem State.fetchRaw_run {s t : State} {r : Raw} {i : Instr} (h : s.fetchRaw r = .run i t) :
    ∃ more, decode s.cfg s.position r = .ok (i, more) ∧ isInternal i = false ∧ t = s.requeue more := by
  simp only [State.fetchRaw] at h
  split at h
  · cases h
  · rename_i j more hd
    split at h
    · cases h
    · rename_i hi
      cases h
      exact ⟨more, hd, eq_false_of_ne_true hi, rfl⟩

end Sys2Proof.Machine

namespace Sys2Proof

/-- The op field of a request word. -/
@[simp] theorem requestOp_requestWord (op : BitVec 2) (b : Byte) : requestOp (requestWord op b) = op := by
  apply BitVec.eq_of_getLsbD_eq
  intro i hi
  have h : (op ++ b).getLsbD (8 + i) = op.getLsbD i := by
    rw [BitVec.getLsbD_append, if_neg (by omega), Nat.add_sub_cancel_left]
  simpa [requestOp, requestWord, hi] using h

/-- The operand field of a request word. -/
@[simp] theorem requestOperand_requestWord (op : BitVec 2) (b : Byte) : requestOperand (requestWord op b) = b := by
  apply BitVec.eq_of_getLsbD_eq
  intro i hi
  have h : (op ++ b).getLsbD i = b.getLsbD i := by rw [BitVec.getLsbD_append, if_pos hi]
  simpa [requestOperand, requestWord, hi] using h

end Sys2Proof
end

