-- ==== Sys2Proof/Laws/PerInstr.lean ====
section
/-! SUPPORT. Statements made per instruction, one lemma per constructor of Instr. -/

namespace Sys2Proof.Laws

/-- The encoding spaces of 30_encoding.md. -/
inductive Space where
  /-- Request words and records (rule R66). -/
  | request
  /-- Inbound wire bytes (rules R62 and R68). -/
  | inbound
  /-- Outbound units (rule R64). -/
  | outbound
  deriving DecidableEq, Repr

/-- The space a raw transaction stands in. -/
def spaceOfRaw : Raw → Space
  | .word _ => .request
  | .record _ _ _ _ _ => .request
  | .inbound _ => .inbound
  | .unit _ _ => .outbound

/-- The space a row of the opcode table belongs to, by its `format`. -/
def spaceOf : Instr → Space
  | .feed _ | .encode _ _ _ | .passthru _ | .reset => .request
  | .inHeader | .inEscPrefix | .inEscSub | .inEscEsc | .inEscHeader | .inEscBad _ | .inLiteral _ | .inUnsynced _ => .inbound
  | .outUnitCtrl _ | .outUnitPt _ | .outUnitReserved _ _ => .outbound

/-- An instruction is encoded in the space of its row. -/
def EncodeSpace.Statement (i : Instr) : Prop :=
  ∀ (cfg : Config) (pos : Position), spaceOfRaw (encode cfg pos i) = spaceOf i

theorem EncodeSpace.feed (b : Byte) : EncodeSpace.Statement (.feed b) := fun _ _ => rfl
theorem EncodeSpace.encode (c d : Byte) (p : List Byte) : EncodeSpace.Statement (.encode c d p) := fun _ _ => rfl
theorem EncodeSpace.passthru (b : Byte) : EncodeSpace.Statement (.passthru b) := fun _ _ => rfl
theorem EncodeSpace.reset : EncodeSpace.Statement .reset := fun _ _ => rfl
theorem EncodeSpace.inHeader : EncodeSpace.Statement .inHeader := fun _ _ => rfl
theorem EncodeSpace.inEscPrefix : EncodeSpace.Statement .inEscPrefix := fun _ _ => rfl
theorem EncodeSpace.inEscSub : EncodeSpace.Statement .inEscSub := fun _ _ => rfl
theorem EncodeSpace.inEscEsc : EncodeSpace.Statement .inEscEsc := fun _ _ => rfl
theorem EncodeSpace.inEscHeader : EncodeSpace.Statement .inEscHeader := fun _ _ => rfl
theorem EncodeSpace.inEscBad (x : Byte) : EncodeSpace.Statement (.inEscBad x) := fun _ _ => rfl
theorem EncodeSpace.inLiteral (b : Byte) : EncodeSpace.Statement (.inLiteral b) := fun _ _ => rfl
theorem EncodeSpace.inUnsynced (b : Byte) : EncodeSpace.Statement (.inUnsynced b) := fun _ _ => rfl
theorem EncodeSpace.outUnitCtrl (w : Byte) : EncodeSpace.Statement (.outUnitCtrl w) := fun _ _ => rfl
theorem EncodeSpace.outUnitPt (w : Byte) : EncodeSpace.Statement (.outUnitPt w) := fun _ _ => rfl
theorem EncodeSpace.outUnitReserved (t w : Byte) : EncodeSpace.Statement (.outUnitReserved t w) := fun _ _ => rfl

end Sys2Proof.Laws
end

