-- ==== Sys2Proof/Tests/Slice0.lean ====
section
/-! SUPPORT. Tests: the well-formedness checks refuse, words written out from the encodings decode, single steps of the vectors of
95_test_vectors.md, and a witness for the hypotheses of each statement. Every expected value is the spec's. -/

namespace Sys2Proof.Tests

open Sys2Proof.Machine

/-! ### States -/

/-- A machine with the default parameters whose decoder is `phase/esc/csum/len/idx` (the notation of 95_test_vectors.md). -/
def at_ (phase : Phase) (esc : Bool) (csum len : Byte) (idx : Nat) (buf : Memory := []) : State :=
  { State.reset with dec := ⟨phase, esc, csum, len, idx, buf⟩ }

/-- The configuration of V34. -/
def smallCfg : Config := { Config.defaults with bufCap := 4, maxPayload := 2 }

/-- The configuration of V33. -/
def literalCfg : Config := { Config.defaults with badEscape := .literal }

/-- A configuration whose `W_ENC_N` is the smallest that rule R7 allows. -/
def nineBitCfg : Config := { Config.defaults with wEncN := 9 }

/-- The decoder, the last output and `OUT` of a next state. -/
def after : Host.Outcome State Fault Refusal → Option (Decoder × Option Outputs × List Byte)
  | .next s => some (s.dec, s.results.getLast?, s.out)
  | .fault _ => none
  | .refused _ => none

/-- The reason of a refusal. -/
def refusal : Host.Outcome State Fault Refusal → Option Refusal
  | .refused r => some r
  | .next _ => none
  | .fault _ => none

/-- The position right after a header, and the one with an escape pending. -/
def inFramePos : Position := ⟨.awaitLength, false, 0⟩
def pendingPos : Position := ⟨.body, true, 1⟩
def idlePos : Position := ⟨.awaitHeader, false, 0⟩

/-! ### WellFormed refuses an ill-formed term for each check -/

theorem test_wf_encode_count_too_wide :
    wellFormed nineBitCfg idlePos (.encode 0 0 (List.replicate 512 0)) = false := by
  simp only [wellFormed, List.length_replicate]
  decide
theorem test_wf_encode_count_fits : wellFormed nineBitCfg idlePos (.encode 0 0 (List.replicate 511 0)) = true := by
  simp only [wellFormed, List.length_replicate]
  decide
theorem test_wf_escPrefix_no_frame : wellFormed Config.defaults idlePos .inEscPrefix = false := by decide
theorem test_wf_escPrefix_pending : wellFormed Config.defaults pendingPos .inEscPrefix = false := by decide
theorem test_wf_escSub_no_frame : wellFormed Config.defaults idlePos .inEscSub = false := by decide
theorem test_wf_escEsc_no_frame : wellFormed Config.defaults idlePos .inEscEsc = false := by decide
theorem test_wf_escHeader_no_frame : wellFormed Config.defaults idlePos .inEscHeader = false := by decide
theorem test_wf_escHeader_pending : wellFormed Config.defaults pendingPos .inEscHeader = false := by decide
theorem test_wf_escBad_no_frame : wellFormed Config.defaults idlePos (.inEscBad 0x41) = false := by decide
theorem test_wf_escBad_sub : wellFormed Config.defaults inFramePos (.inEscBad 0x20) = false := by decide
theorem test_wf_escBad_esc : wellFormed Config.defaults inFramePos (.inEscBad 0x1A) = false := by decide
theorem test_wf_escBad_header : wellFormed Config.defaults inFramePos (.inEscBad 0xF1) = false := by decide
theorem test_wf_literal_no_frame : wellFormed Config.defaults idlePos (.inLiteral 0x41) = false := by decide
theorem test_wf_literal_pending : wellFormed Config.defaults pendingPos (.inLiteral 0x41) = false := by decide
theorem test_wf_literal_header : wellFormed Config.defaults inFramePos (.inLiteral 0xF1) = false := by decide
theorem test_wf_literal_esc : wellFormed Config.defaults inFramePos (.inLiteral 0x1A) = false := by decide
theorem test_wf_unsynced_in_frame : wellFormed Config.defaults inFramePos (.inUnsynced 0x41) = false := by decide
theorem test_wf_unsynced_header : wellFormed Config.defaults idlePos (.inUnsynced 0xF1) = false := by decide
theorem test_wf_reserved_ctrl : wellFormed Config.defaults idlePos (.outUnitReserved 0x00 0x41) = false := by decide
theorem test_wf_reserved_pt : wellFormed Config.defaults idlePos (.outUnitReserved 0x01 0x41) = false := by decide

/-! Rule R8: each of (a) to (f) alone refuses a configuration, and so does a `W_ENC_N` of 8 (rule R7). -/

theorem test_cfg_header_is_esc : ¬ ({ Config.defaults with header := 0x1A } : Config).wf := by decide
theorem test_cfg_sub_is_header : ¬ ({ Config.defaults with sub := 0xF1 } : Config).wf := by decide
theorem test_cfg_sub_is_esc : ¬ ({ Config.defaults with sub := 0x1A } : Config).wf := by decide
theorem test_cfg_tags_equal : ¬ ({ Config.defaults with tagPt := 0x00 } : Config).wf := by decide
theorem test_cfg_payload_too_long : ¬ ({ Config.defaults with maxPayload := 254 } : Config).wf := by decide
theorem test_cfg_buffer_too_small : ¬ ({ Config.defaults with bufCap := 254 } : Config).wf := by decide
theorem test_cfg_count_too_narrow : ¬ ({ Config.defaults with wEncN := 8 } : Config).wf := by decide

/-! ### Decoding: words written out from rules R62, R64 and R66 -/

theorem test_decode_feed : decodeWord 0b0011110001#10 = .ok (.feed 0xF1) := by rfl
theorem test_decode_encode :
    decode Config.defaults idlePos (.record 0b01#2 0x01 0x02 1 [0x0E]) = .ok (.encode 0x01 0x02 [0x0E], none) := by rfl
theorem test_decode_passthru : decodeWord 0b1001000001#10 = .ok (.passthru 0x41) := by rfl
theorem test_decode_reset : decodeWord 0b1100000000#10 = .ok .reset := by rfl
theorem test_decode_reset_operand : decodeWord 0b1111111111#10 = .error (.resetOperand 0xFF) := by rfl
theorem test_decode_header : decodeInbound Config.defaults pendingPos [0xF1] = .ok (.inHeader, []) := by rfl
theorem test_decode_escPrefix : decodeInbound Config.defaults inFramePos [0x1A] = .ok (.inEscPrefix, []) := by rfl
theorem test_decode_escSub : decodeInbound Config.defaults inFramePos [0x1A, 0x20, 0x05] = .ok (.inEscSub, [0x05]) := by rfl
theorem test_decode_escSub_pending : decodeInbound Config.defaults pendingPos [0x20] = .ok (.inEscSub, []) := by rfl
theorem test_decode_escEsc : decodeInbound Config.defaults inFramePos [0x1A, 0x1A] = .ok (.inEscEsc, []) := by rfl
theorem test_decode_escHeader : decodeInbound Config.defaults inFramePos [0x1A, 0xF1] = .ok (.inEscHeader, []) := by rfl
theorem test_decode_escBad : decodeInbound Config.defaults inFramePos [0x1A, 0x41] = .ok (.inEscBad 0x41, []) := by rfl
theorem test_decode_literal_sub : decodeInbound Config.defaults inFramePos [0x20] = .ok (.inLiteral 0x20, []) := by rfl
theorem test_decode_unsynced_esc : decodeInbound Config.defaults idlePos [0x1A, 0x20] = .ok (.inUnsynced 0x1A, [0x20]) := by
  rfl
theorem test_decode_unit_ctrl : decodeUnit Config.defaults 0x00 0xF1 = .outUnitCtrl 0xF1 := by rfl
theorem test_decode_unit_pt : decodeUnit Config.defaults 0x01 0x00 = .outUnitPt 0x00 := by rfl
theorem test_decode_unit_reserved : decodeUnit Config.defaults 0xFF 0x00 = .outUnitReserved 0xFF 0x00 := by rfl

/-- The words of the opcode table that no other row shares. -/
theorem test_table_words :
    decodeTableWord 16 0x0F1 = some (.feed 0xF1) ∧ decodeTableWord 16 0x100 = some (.encode 0 0 []) ∧
      decodeTableWord 16 0x2F1 = some (.passthru 0xF1) ∧ decodeTableWord 16 0x300 = some .reset ∧
      decodeTableWord 16 0x301 = none ∧ decodeTableWord 8 0xF1 = some .inHeader ∧
      decodeTableWord 8 0x1A = some .inEscPrefix ∧ decodeTableWord 16 0x1A20 = some .inEscSub ∧
      decodeTableWord 16 0x1A1A = some .inEscEsc ∧ decodeTableWord 16 0x1AF1 = some .inEscHeader ∧
      decodeTableWord 16 0x1A00 = some (.inEscBad 0x00) ∧ decodeTableWord 8 0x00 = some (.inLiteral 0x00) ∧
      decodeTableWord 16 0xFF00 = some (.outUnitReserved 0xFF 0x00) := by decide

/-! ### The combinational functions (V13, V15, V16, V18) -/

theorem test_v13 : escapeAll Config.defaults [0xF1, 0x1A, 0x20, 0xF1] = [0x1A, 0x20, 0x1A, 0x1A, 0x20, 0x1A, 0x20] := by decide
theorem test_v15 : unescapeByte Config.defaults 0x41 = none ∧ unescapeByte Config.defaults 0x00 = none := by decide
theorem test_v16 :
    unescapeAll Config.defaults [0x1A, 0x20, 0x1A, 0x1A, 0x20, 0x1A, 0x20] = some [0xF1, 0x1A, 0x20, 0xF1] := by decide
theorem test_v18 : frameChecksum Config.defaults 0xFF 0xFF [0xFF] = 0xF1 := by decide

/-! ### One step each (95_test_vectors.md) -/

/-- V28: the second byte of the escaped checksum delivers the empty frame. -/
theorem test_v28_feed : after (exec (.feed 0x20) (at_ .body true 0xF1 0x00 0)) =
    some (⟨.awaitHeader, false, 0xF1, 0x00, 0, []⟩, some (.deliver ⟨0x00, []⟩), []) := by decide
/-- V34: the overflow of a buffer of 4 entries. -/
theorem test_v34_feed :
    after (exec (.feed 0x05) { State.create smallCfg with dec := ⟨.body, false, 0x01, 0x06, 4, []⟩ }) =
      some (⟨.awaitHeader, false, 0x01, 0x06, 4, []⟩, some (.signal .bufferOverflow), []) := by decide
/-- V51: `cmd` and `dtype` escaped. -/
theorem test_v51_encode : after (exec (.encode 0xF1 0x1A []) State.reset) =
    some (Decoder.reset, some (.respond .ok),
      [0x00, 0xF1, 0x00, 0x02, 0x00, 0x1A, 0x00, 0x20, 0x00, 0x1A, 0x00, 0x1A, 0x00, 0xFE]) := by decide
/-- V58: a payload count of 254. -/
theorem test_v58_encode : after (exec (.encode 0x00 0x00 (List.replicate 254 0x00)) State.reset) =
    some (Decoder.reset, some (.respond .payloadTooLarge), []) := by
  have h : ∀ p : List Byte, State.reset.cfg.maxPayload < p.length → after (exec (.encode 0x00 0x00 p) State.reset) =
      some (Decoder.reset, some (.respond .payloadTooLarge), []) := by
    intro p hp
    show after (if _ then _ else _) = _
    rw [if_pos hp]
    rfl
  exact h _ (by rw [List.length_replicate]; decide)
/-- V61: no escaping. -/
theorem test_v61_passthru : after (exec (.passthru 0xF1) State.reset) =
    some (Decoder.reset, some .idle, [0x01, 0xF1]) := by decide
/-- V63: RESET in the middle of a frame. -/
theorem test_v63_reset : after (exec .reset (at_ .body false 0xF4 0x03 0)) =
    some (⟨.awaitHeader, false, 0x00, 0x00, 0, []⟩, some .idle, []) := by decide
/-- V22: a header in the middle of a frame. -/
theorem test_v22_header : after (exec .inHeader (at_ .body false 0xFD 0x03 1 [(0, 0x09)])) =
    some (⟨.awaitLength, false, 0xF1, 0x03, 0, [(0, 0x09)]⟩, some (.signal .resync), []) := by decide
/-- V21: a header while no frame is in progress. -/
theorem test_v21_header : after (exec .inHeader State.reset) =
    some (⟨.awaitLength, false, 0xF1, 0x00, 0, []⟩, some .idle, []) := by decide
/-- V24. -/
theorem test_v24_escPrefix : after (exec .inEscPrefix (at_ .awaitLength false 0xF1 0x00 0)) =
    some (⟨.awaitLength, true, 0xF1, 0x00, 0, []⟩, some .idle, []) := by decide
/-- V25: the whole pair as the length. -/
theorem test_v25_escSub : after (exec .inEscSub (at_ .awaitLength false 0xF1 0x00 0)) =
    some (⟨.body, false, 0xE2, 0xF1, 0, []⟩, some .idle, []) := by decide
/-- V3: the second byte of a pair, as the last body byte. -/
theorem test_v3_escSub_second :
    after (exec .inEscSub (at_ .body true 0xFE 0x03 2 [(0, 0x09), (1, 0x01)])) =
      some (⟨.body, false, 0xEF, 0x03, 3, [(0, 0x09), (1, 0x01), (2, 0xF1)]⟩, some .idle, []) := by decide
/-- V26. -/
theorem test_v26_escEsc : after (exec .inEscEsc (at_ .awaitLength false 0xF1 0x00 0)) =
    some (⟨.body, false, 0x0B, 0x1A, 0, []⟩, some .idle, []) := by decide
/-- V23: a header while an escape is pending. -/
theorem test_v23_escHeader : after (exec .inEscHeader (at_ .body true 0xF4 0x03 0)) =
    some (⟨.awaitLength, false, 0xF1, 0x03, 0, []⟩, some (.signal .resync), []) := by decide
/-- V32: `Discard`. -/
theorem test_v32_escBad : after (exec (.inEscBad 0x41) (at_ .body true 0xF5 0x03 1 [(0, 0x01)])) =
    some (⟨.awaitHeader, false, 0xF5, 0x03, 1, [(0, 0x01)]⟩, some (.signal .badEscape), []) := by decide
/-- V33: `Literal`. -/
theorem test_v33_escBad :
    after (exec (.inEscBad 0x41) { State.create literalCfg with dec := ⟨.body, true, 0xF5, 0x03, 1, [(0, 0x01)]⟩ }) =
      some (⟨.body, false, 0x36, 0x03, 2, [(0, 0x01), (1, 0x41)]⟩, some .idle, []) := by decide
/-- V30: the checksum matches. -/
theorem test_v30_literal :
    after (exec (.inLiteral 0x05) (at_ .body false 0x05 0x03 3 [(0, 0x01), (1, 0x02), (2, 0x0E)])) =
      some (⟨.awaitHeader, false, 0x05, 0x03, 3, [(0, 0x01), (1, 0x02), (2, 0x0E)]⟩,
        some (.deliver ⟨0x03, [0x01, 0x02, 0x0E]⟩), []) := by decide
/-- V31: the checksum does not match. -/
theorem test_v31_literal :
    after (exec (.inLiteral 0x06) (at_ .body false 0x05 0x03 3 [(0, 0x01), (1, 0x02), (2, 0x0E)])) =
      some (⟨.awaitHeader, false, 0x05, 0x03, 3, [(0, 0x01), (1, 0x02), (2, 0x0E)]⟩,
        some (.signal .checksumMismatch), []) := by decide
/-- V20: `ESC` while no frame is in progress. -/
theorem test_v20_unsynced : after (exec (.inUnsynced 0x1A) State.reset) =
    some (Decoder.reset, some (.signal .unsyncedByte), []) := by decide
/-- Rule R135. -/
theorem test_unit_ctrl : after (exec (.outUnitCtrl 0xF1) State.reset) = some (Decoder.reset, none, [0x00, 0xF1]) := by decide
/-- V62. -/
theorem test_unit_pt : after (exec (.outUnitPt 0x00) State.reset) = some (Decoder.reset, none, [0x01, 0x00]) := by decide
/-- 93_implementation_defined.md I5. -/
theorem test_unit_reserved : refusal (exec (.outUnitReserved 0x02 0x41) State.reset) = some (.reservedTag 0x02) := by decide

/-- Rules R135 and R170: a unit that the environment issues is refused; one with a reserved tag by its own name. -/
theorem test_step_units :
    refusal (step { State.reset with requests := [.one (.unit 0x00 0xF1)] }) = some .internalUnit ∧
      refusal (step { State.reset with requests := [.one (.unit 0x01 0x41)] }) = some .internalUnit ∧
      refusal (step { State.reset with requests := [.one (.unit 0xFF 0x00)] }) = some (.reservedTag 0xFF) := by decide

/-- A step runs the word that stands where it fetches: the pair of V25 and the RESET word. -/
theorem test_step_fetches :
    after (step (State.reset.withFetchWord 16 0x1A20)) = some (⟨.body, false, 0xE2, 0xF1, 0, []⟩, some .idle, []) ∧
      after (step ((at_ .body false 0xF4 0x03 0).withFetchWord 16 0x300)) =
        some (⟨.awaitHeader, false, 0x00, 0x00, 0, []⟩, some .idle, []) := by decide

/-! ### Witnesses: the hypotheses of each statement are met together -/

theorem wf_defaults : Config.defaults.wf := by decide
theorem wf_small : smallCfg.wf := by decide
theorem wf_literal : literalCfg.wf := by decide

/-- A frame of declared length 1 whose body byte is stored, under the invariant. -/
def fullBody : State := at_ .body false 0x34 0x01 1 [(0, 0x42)]

theorem fullBody_inv : DecoderInv fullBody.cfg fullBody.dec where
  canonical := by decide
  inBuffer := by decide
  idxBound := by decide
  escOnlyInFrame := by decide
  started := by decide
  bodyIndex := by decide
  bodySum := fun _ => ⟨[0x42], rfl, by decide, by decide⟩

/-- A frame of declared length 0 at its checksum byte, with the escape of V28 pending. -/
def emptyBody : State := at_ .body true 0xF1 0x00 0

theorem emptyBody_inv : DecoderInv emptyBody.cfg emptyBody.dec where
  canonical := by decide
  inBuffer := by decide
  idxBound := by decide
  escOnlyInFrame := by decide
  started := by decide
  bodyIndex := by decide
  bodySum := fun _ => ⟨[], rfl, by decide, by decide⟩

theorem witness_UnsyncedByteIsDiscarded :
    State.reset.dec.phase = .awaitHeader ∧ (0x1A#8 : Byte) ≠ State.reset.cfg.header := by decide
theorem witness_HeaderStartsFrame : ∃ t : State, t = { fullBody with
    dec := { fullBody.dec with phase := .awaitLength, csum := fullBody.cfg.header, esc := false, idx := 0 }
    results := fullBody.results ++ [⟨none, if fullBody.dec.phase = .awaitHeader then .none else .resync, none⟩] } := ⟨_, rfl⟩
theorem witness_EscapePrefixSetsFlagOnly :
    fullBody.cfg.wf ∧ fullBody.dec.phase ≠ .awaitHeader ∧ fullBody.dec.esc = false ∧
      ∃ t : State, t = { fullBody with
        dec := { fullBody.dec with esc := true }, results := fullBody.results ++ [⟨none, .none, none⟩] } :=
  ⟨wf_defaults, by decide, by decide, _, rfl⟩
theorem witness_EscapeThenHeaderRestarts :
    (fullBody.cfg.wf ∧ fullBody.dec.phase ≠ .awaitHeader ∧ fullBody.dec.esc = false) ∧
      (emptyBody.cfg.wf ∧ emptyBody.dec.phase ≠ .awaitHeader ∧ emptyBody.dec.esc = true) := by decide
theorem witness_EscapedHeaderIsPlaced :
    (emptyBody.cfg.wf ∧ IndexInv emptyBody.cfg emptyBody.dec ∧ emptyBody.dec.phase ≠ .awaitHeader ∧ emptyBody.dec.esc = true) ∧
      (fullBody.cfg.wf ∧ IndexInv fullBody.cfg fullBody.dec ∧ fullBody.dec.phase ≠ .awaitHeader ∧ fullBody.dec.esc = false) :=
  ⟨⟨wf_defaults, fun _ => by decide, by decide, by decide⟩, ⟨wf_defaults, fun _ => by decide, by decide, by decide⟩⟩
theorem witness_EscapedEscapeIsPlaced :
    (emptyBody.cfg.wf ∧ IndexInv emptyBody.cfg emptyBody.dec ∧ emptyBody.dec.phase ≠ .awaitHeader ∧ emptyBody.dec.esc = true) ∧
      (fullBody.cfg.wf ∧ IndexInv fullBody.cfg fullBody.dec ∧ fullBody.dec.phase ≠ .awaitHeader ∧ fullBody.dec.esc = false) :=
  witness_EscapedHeaderIsPlaced
/-- With the escape pending, and with the whole pair still to come. -/
theorem witness_BadEscapeDiscardsFrame :
    (emptyBody.cfg.wf ∧ emptyBody.dec.phase ≠ .awaitHeader ∧ emptyBody.cfg.badEscape = .discard ∧ emptyBody.dec.esc = true) ∧
      (fullBody.cfg.wf ∧ fullBody.dec.phase ≠ .awaitHeader ∧ fullBody.cfg.badEscape = .discard ∧ fullBody.dec.esc = false) ∧
      (0x21#8 : Byte) ≠ Config.defaults.sub ∧ (0x21#8 : Byte) ≠ Config.defaults.esc ∧
      (0x21#8 : Byte) ≠ Config.defaults.header := by
  decide
/-- With the escape pending, and with the whole pair still to come. -/
theorem witness_BadEscapeUnderLiteralIsPlaced :
    ∃ s u : State, s.cfg.wf ∧ IndexInv s.cfg s.dec ∧ s.dec.phase ≠ .awaitHeader ∧ s.dec.esc = true ∧
      IndexInv s.cfg u.dec ∧ u.dec.phase ≠ .awaitHeader ∧ u.dec.esc = false ∧ u.cfg = s.cfg ∧ s.cfg.badEscape = .literal ∧
      (0x41#8 : Byte) ≠ s.cfg.sub ∧ (0x41#8 : Byte) ≠ s.cfg.esc ∧ (0x41#8 : Byte) ≠ s.cfg.header :=
  ⟨{ State.create literalCfg with dec := ⟨.body, true, 0xF5, 0x03, 1, [(0, 0x01)]⟩ },
    { State.create literalCfg with dec := ⟨.body, false, 0xF5, 0x03, 1, [(0, 0x01)]⟩ },
    wf_literal, fun _ => by decide, by decide, rfl, fun _ => by decide, by decide, rfl, rfl, by decide⟩
theorem witness_LiteralByteIsPlaced :
    IndexInv fullBody.cfg fullBody.dec ∧ fullBody.dec.phase ≠ .awaitHeader ∧ fullBody.dec.esc = false ∧
      (0x20#8 : Byte) ≠ fullBody.cfg.header ∧ (0x20#8 : Byte) ≠ fullBody.cfg.esc := ⟨fun _ => by decide, by decide⟩
theorem witness_LengthByteIsTaken :
    ∃ s : State, s.dec.phase = .awaitLength ∧ Resolves s.cfg s.dec.esc 0x1A#8 0x1A#8 ∧
      ∃ u : State, u.dec.phase = .awaitLength ∧ Resolves u.cfg u.dec.esc 0xFF#8 0xFF#8 :=
  ⟨at_ .awaitLength true 0xF1 0 0, rfl, ⟨by decide, .inr (.inr (.inl (by decide)))⟩,
    at_ .awaitLength false 0xF1 0 0, rfl, ⟨by decide, .inl (by decide)⟩⟩
/-- The last index of the largest frame. -/
theorem witness_BodyByteIsStored :
    ∃ s : State, s.dec.phase = .body ∧ s.dec.idx < s.dec.len.toNat ∧ s.dec.idx < s.cfg.bufCap ∧
      Resolves s.cfg s.dec.esc 0x20#8 0xF1#8 :=
  ⟨at_ .body true 0 0xFF 254, by decide, by decide, by decide, ⟨by decide, .inr (.inl (by decide))⟩⟩
theorem witness_ChecksumMatchDelivers :
    (DecoderInv fullBody.cfg fullBody.dec ∧ fullBody.dec.phase = .body ∧ fullBody.dec.idx = fullBody.dec.len.toNat ∧
      Resolves fullBody.cfg fullBody.dec.esc 0x34#8 fullBody.dec.csum) ∧
    (DecoderInv emptyBody.cfg emptyBody.dec ∧ emptyBody.dec.phase = .body ∧ emptyBody.dec.idx = emptyBody.dec.len.toNat ∧
      Resolves emptyBody.cfg emptyBody.dec.esc 0x20#8 emptyBody.dec.csum) :=
  ⟨⟨fullBody_inv, by decide, by decide, ⟨by decide, .inl (by decide)⟩⟩,
    ⟨emptyBody_inv, by decide, by decide, ⟨by decide, .inr (.inl (by decide))⟩⟩⟩
theorem witness_ChecksumMismatchDiscards :
    fullBody.dec.phase = .body ∧ fullBody.dec.idx = fullBody.dec.len.toNat ∧
      Resolves fullBody.cfg fullBody.dec.esc 0x35#8 0x35#8 ∧ (0x35#8 : Byte) ≠ fullBody.dec.csum :=
  ⟨by decide, by decide, ⟨by decide, .inl (by decide)⟩, by decide⟩
theorem witness_BufferOverflowDiscards :
    (∃ s : State, s.dec.phase = .body ∧ s.dec.idx < s.dec.len.toNat ∧ s.cfg.bufCap ≤ s.dec.idx ∧
      Resolves s.cfg s.dec.esc 0x05#8 0x05#8) ∧
    (∃ t o, 255 ≤ fullBody.cfg.bufCap ∧ exec (.feed 0x35) fullBody = .next t ∧ t.results = fullBody.results ++ [o]) :=
  ⟨⟨{ State.create smallCfg with dec := ⟨.body, false, 0x01, 0x06, 4, []⟩ }, by decide, by decide, by decide,
    ⟨by decide, .inl (by decide)⟩⟩, _, _, by decide, rfl, rfl⟩
theorem witness_FeedCompletesWithItsFrame :
    (IndexInv fullBody.cfg fullBody.dec ∧ ¬ Stores fullBody.cfg fullBody.dec 0x34) ∧
    (∃ s : State, IndexInv s.cfg s.dec ∧ Stores s.cfg s.dec 0x34) :=
  ⟨⟨fun _ => by decide, fun h => absurd h.2.1 (by decide)⟩, at_ .body false 0 0xFF 254, fun _ => by decide,
    by decide, by decide, by decide, 0x34, by decide, .inl (by decide)⟩
theorem witness_OneFeedDeliversAtMostOneFrame :
    IndexInv fullBody.cfg fullBody.dec ∧ ∃ t, exec (.feed 0x34) fullBody = .next t := ⟨fun _ => by decide, _, rfl⟩
theorem witness_PhaseGraph : fullBody.cfg.wf ∧ ∃ t, exec (.feed 0x34) fullBody = .next t := ⟨wf_defaults, _, rfl⟩
/-- Each of the three clauses: a mismatch, an unsynced byte, a header inside a frame. -/
theorem witness_DecoderErrorIsPrecise :
    (∃ t o, exec (.feed 0x35) fullBody = .next t ∧ t.results = fullBody.results ++ [o] ∧ o.event = .checksumMismatch) ∧
    (∃ t o, exec (.feed 0x35) State.reset = .next t ∧ t.results = State.reset.results ++ [o] ∧ o.event = .unsyncedByte) ∧
    (∃ t o, exec (.feed 0xF1) fullBody = .next t ∧ t.results = fullBody.results ++ [o] ∧ o.event = .resync) :=
  ⟨⟨_, _, rfl, rfl, rfl⟩, ⟨_, _, rfl, rfl, rfl⟩, ⟨_, _, rfl, rfl, rfl⟩⟩
/-- A frame of length 1, and one of length 2. -/
theorem witness_DeliveredFrameViews :
    (∃ t o f, exec (.feed 0x34) fullBody = .next t ∧ t.results = fullBody.results ++ [o] ∧ o.frame = some f ∧
      f.len.toNat < 2) ∧
    (∃ s t o f, s = at_ .body false 0xF3 0x02 2 [(0, 0x00), (1, 0x00)] ∧ exec (.feed 0xF3) s = .next t ∧
      t.results = s.results ++ [o] ∧ o.frame = some f ∧ 2 ≤ f.len.toNat) :=
  ⟨⟨_, _, ⟨1, [0x42]⟩, rfl, rfl, rfl, by decide⟩, ⟨_, _, _, ⟨2, [0x00, 0x00]⟩, rfl, rfl, rfl, rfl, by decide⟩⟩
theorem witness_ShortFramesAreDelivered : State.reset.cfg.wf := wf_defaults
theorem witness_NoTimeout :
    (∃ t, [Instr.passthru 0x41].all isOutbound = true ∧ execAll [Instr.passthru 0x41] fullBody = .next t) ∧
      fullBody.cfg.wf ∧ fullBody.requests = [] := ⟨⟨_, rfl, rfl⟩, wf_defaults, rfl⟩
/-- The largest payload. -/
theorem witness_ResynchronizesOnEveryFrame :
    fullBody.cfg.wf ∧ (List.replicate 253 (0xAA#8 : Byte)).length + 2 ≤ 255 ∧
      (List.replicate 253 (0xAA#8 : Byte)).length + 2 ≤ fullBody.cfg.bufCap := by
  simp only [List.length_replicate]
  decide
theorem witness_GarbageNeverBlocksFrame :
    fullBody.cfg.wf ∧ IndexInv fullBody.cfg fullBody.dec ∧
      (List.replicate 253 (0xAA#8 : Byte)).length ≤ fullBody.cfg.maxPayload := by
  refine ⟨wf_defaults, fun _ => by decide, ?_⟩
  rw [List.length_replicate]
  decide
theorem witness_RoundTrip :
    State.reset.cfg.wf ∧ fullBody.cfg = State.reset.cfg ∧
      (List.replicate 253 (0xAA#8 : Byte)).length ≤ State.reset.cfg.maxPayload := by
  refine ⟨wf_defaults, rfl, ?_⟩
  rw [List.length_replicate]
  decide
/-- A changed body byte (the first and the last), and a changed checksum. -/
theorem witness_AlteredByteIsDetected :
    State.reset.cfg.wf ∧ [(0x0E#8 : Byte)].length ≤ State.reset.cfg.maxPayload ∧
      [0x01#8, 0x02#8, 0x0E#8] = [] ++ 0x01#8 :: [0x02#8, 0x0E#8] ∧
      [0x01#8, 0x02#8, 0x0E#8] = [0x01#8, 0x02#8] ++ 0x0E#8 :: [] ∧ (0x0F#8 : Byte) ≠ 0x0E#8 ∧
      (0x05#8 : Byte) = frameChecksum State.reset.cfg 0x01 0x02 [0x0E] ∧
      (0x04#8 : Byte) ≠ frameChecksum State.reset.cfg 0x01 0x02 [0x0E] := by decide
theorem witness_IdleDecoderStateIsUnobservable :
    ∃ s u : State, u.cfg = s.cfg ∧ u.out = s.out ∧ u.results = s.results ∧ s.dec ≠ u.dec ∧
      s.dec.phase = .awaitHeader ∧ u.dec.phase = .awaitHeader ∧ [Instr.feed 0xF1, .reset].all isOperation = true :=
  ⟨State.reset, at_ .awaitHeader true 0x12 0x34 5 [(0, 0x42)], rfl, rfl, rfl, by decide, rfl, rfl, rfl⟩
theorem witness_ResetIsObservablyFresh : [Instr.feed 0xF1, .encode 0 0 [], .passthru 0, .reset].all isOperation = true := rfl
theorem witness_DirectionsAreIndependent :
    ∃ t, execAll [.feed 0xF1, .passthru 0x41, .feed 0x03] State.reset = .next t := ⟨_, rfl⟩
/-- The largest payload count. -/
theorem witness_UnitRowsAppendOneUnit :
    (List.replicate 253 (0xAA#8 : Byte)).length ≤ State.reset.cfg.maxPayload := by
  rw [List.length_replicate]
  decide
/-- The largest payload count. -/
theorem witness_EncodeAppendsItsFrame :
    ∃ n sum : Byte, (List.replicate 253 (0xAA#8 : Byte)).length ≤ State.reset.cfg.maxPayload ∧
      n = BitVec.ofNat 8 ((List.replicate 253 (0xAA#8 : Byte)).length + 2) ∧
      sum = sumBytes ([State.reset.cfg.header, n, 0x01, 0x01] ++ List.replicate 253 0xAA) := by
  refine ⟨_, _, ?_, rfl, rfl⟩
  rw [List.length_replicate]
  decide
theorem witness_OversizedEncodeEmitsNothing : State.reset.cfg.maxPayload < (List.replicate 254 (0x00#8 : Byte)).length := by
  rw [List.length_replicate]
  decide
theorem witness_LengthFieldIsExact :
    Config.defaults.wf ∧ 0 ≤ Config.defaults.maxPayload ∧ 253 ≤ Config.defaults.maxPayload := by decide
theorem witness_OutIsInCallOrder :
    (∃ t, execAll [.passthru 0x41, .encode 0 0 []] State.reset = .next t) ∧
      [(0x0E#8 : Byte)].length ≤ Config.defaults.maxPayload := ⟨⟨_, rfl⟩, by decide⟩
theorem witness_HostDemultiplexesBothChannels :
    State.reset.cfg.wf ∧ [Instr.passthru 0x41, .encode 0 0 []].all isOperation = true ∧
      unitAligned State.reset.cfg State.reset.out ∧ ∃ t, execAll [.passthru 0x41, .encode 0 0 []] State.reset = .next t :=
  ⟨wf_defaults, rfl, trivial, _, rfl⟩
theorem witness_HeaderMarksFrameStartsOnly :
    State.reset.cfg.wf ∧ [Instr.passthru 0xF1, .encode 0xF1 0 []].all isOperation = true ∧ State.reset.out = [] ∧
      ∃ t, execAll [.passthru 0xF1, .encode 0xF1 0 []] State.reset = .next t := ⟨wf_defaults, rfl, rfl, _, rfl⟩
theorem witness_EscapedBytesExcludeHeader :
    Config.defaults.header ≠ Config.defaults.esc ∧ Config.defaults.sub ≠ Config.defaults.header := by decide
theorem witness_UnescapeInvertsEscape :
    Config.defaults.header ≠ Config.defaults.esc ∧ Config.defaults.sub ≠ Config.defaults.header ∧
      Config.defaults.sub ≠ Config.defaults.esc := by decide
theorem witness_ChecksumIsIncremental : [(0x01#8 : Byte), 0x02#8].Perm [0x02#8, 0x01#8] := by decide
theorem witness_ChecksumErrorDetection :
    (0x55#8 : Byte) ≠ 0x54#8 ∧ 0 < 8 ∧ 7 < 8 ∧ [(0x01#8 : Byte), 0x02#8].Perm [0x02#8, 0x01#8] := by decide
/-- A frame none of whose bytes needs escaping, and one (of another configuration) all of whose bytes do. -/
theorem witness_FrameSizeBounds :
    (∃ fields : List Byte, fields = [declaredLength 0, 0x00, 0x00] ++ [] ++ [frameChecksum Config.defaults 0x00 0x00 []] ∧
      ∀ v ∈ fields, v ≠ Config.defaults.header ∧ v ≠ Config.defaults.esc) ∧
    (∃ (cfg : Config) (fields : List Byte), fields = [declaredLength 0, 0x02, 0xFC] ++ [] ++ [frameChecksum cfg 0x02 0xFC []] ∧
      cfg = { Config.defaults with header := 0xFC, esc := 0x02 } ∧ frameChecksum cfg 0x02 0xFC [] = 0xFC) :=
  ⟨⟨_, rfl, by decide⟩, _, _, rfl, rfl, by decide⟩
/-- The largest payload count of the last two clauses. -/
theorem witness_FrameSizeBounds_largest : (List.replicate 253 (0xF1#8 : Byte)).length ≤ 253 ∧
    (List.replicate 253 (0xF1#8 : Byte)).length ≤ Config.defaults.maxPayload := by
  simp only [List.length_replicate]
  decide
theorem witness_InboundPrecedence : Config.defaults.wf ∧ idlePos.phase = .awaitHeader ∧
    (inFramePos.phase ≠ .awaitHeader ∧ inFramePos.esc = false) ∧ (pendingPos.phase ≠ .awaitHeader ∧ pendingPos.esc = true) ∧
    (0x41#8 : Byte) ≠ Config.defaults.header ∧ (0x41#8 : Byte) ≠ Config.defaults.sub ∧ (0x41#8 : Byte) ≠ Config.defaults.esc := by
  decide
theorem witness_InboundRowActsAsItsWireBytes :
    encode State.reset.cfg fullBody.position .inEscSub = .inbound [0x1A, 0x20] ∧
      encode State.reset.cfg emptyBody.position .inEscSub = .inbound [0x20] := by decide
theorem witness_DecodeInvertsEncode :
    Config.defaults.wf ∧ wellFormed Config.defaults inFramePos (.inEscBad 0x41) = true ∧
      wellFormed Config.defaults pendingPos (.inEscBad 0x41) = true ∧
      wellFormed Config.defaults idlePos (.inUnsynced 0x1A) = true ∧
      wellFormed Config.defaults idlePos (.outUnitReserved 0x02 0x00) = true := by decide
theorem witness_InboundBytesHaveOneReading : Config.defaults.wf := wf_defaults
/-- An instruction that runs, and a unit, which is internal. -/
theorem witness_StepRunsTheDecodedInstruction :
    (∃ s : State, s.cfg.wf ∧ s.requests = .one (.inbound [0x1A, 0x20, 0x05]) :: [] ∧ isInternal .inEscSub = false ∧
      decode s.cfg s.position (.inbound [0x1A, 0x20, 0x05]) = .ok (.inEscSub, some (.inbound [0x05]))) ∧
    (∃ s : State, s.cfg.wf ∧ s.requests = .one (.unit 0x00 0xF1) :: [] ∧ isInternal (.outUnitCtrl 0xF1) = true ∧
      decode s.cfg s.position (.unit 0x00 0xF1) = .ok (.outUnitCtrl 0xF1, none)) :=
  ⟨⟨{ fullBody with requests := [.one (.inbound [0x1A, 0x20, 0x05])] }, wf_defaults, rfl, rfl, rfl⟩,
    { fullBody with requests := [.one (.unit 0x00 0xF1)] }, wf_defaults, rfl, rfl, rfl⟩
/-- Each of the four clauses; the first and the last operand of a refused RESET word. -/
theorem witness_StepRefusesWhatTheSpecRefuses :
    (∃ s : State, ¬ s.cfg.wf) ∧
    (∃ s : State, s.cfg.wf ∧ (0x01#8 : Byte) ≠ 0#8 ∧ s.requests = .one (.word (requestWord 3#2 0x01#8)) :: []) ∧
    (∃ s : State, s.cfg.wf ∧ (0xFF#8 : Byte) ≠ 0#8 ∧ s.requests = .one (.word (requestWord 3#2 0xFF#8)) :: []) ∧
    (∃ s : State, s.cfg.wf ∧ s.requests = .overlap (.word (requestWord 0#2 0xF1)) (.word (requestWord 3#2 0#8)) :: []) ∧
    (∃ s : State, s.cfg.wf ∧ s.requests = .one (.unit s.cfg.tagCtrl 0xF1) :: []) ∧
    (∃ s : State, s.cfg.wf ∧ s.requests = .one (.unit s.cfg.tagPt 0xF1) :: []) :=
  ⟨⟨State.create { Config.defaults with sub := 0xF1 }, by decide⟩,
    ⟨{ State.reset with requests := [.one (.word (requestWord 3#2 0x01#8))] }, wf_defaults, by decide, rfl⟩,
    ⟨{ State.reset with requests := [.one (.word (requestWord 3#2 0xFF#8))] }, wf_defaults, by decide, rfl⟩,
    ⟨{ State.reset with requests := [.overlap (.word (requestWord 0#2 0xF1)) (.word (requestWord 3#2 0#8))] }, wf_defaults, rfl⟩,
    ⟨{ State.reset with requests := [.one (.unit 0x00 0xF1)] }, wf_defaults, rfl⟩,
    ⟨{ State.reset with requests := [.one (.unit 0x01 0xF1)] }, wf_defaults, rfl⟩⟩
theorem witness_OverlappingRequestIsHeld :
    ∃ s : State, s.requests = .overlap (.record 1#2 0 0 0 []) (.word (requestWord 2#2 0x41)) :: [] ∧
      overlapConflict (.record 1#2 0 0 0 []) (.word (requestWord 2#2 0x41)) = false :=
  ⟨{ State.reset with requests := [.overlap (.record 1#2 0 0 0 []) (.word (requestWord 2#2 0x41))] }, rfl, rfl⟩
/-- An operation, and nothing issued. -/
theorem witness_StepOnlyAppends :
    (∃ t, step { State.reset with requests := [.one (.word (requestWord 2#2 0x41))] } = .next t) ∧
      ∃ t, step State.reset = .next t := ⟨⟨_, rfl⟩, _, rfl⟩
theorem witness_StepKeepsInvariant :
    Inv { fullBody with requests := [.one (.word (requestWord 0#2 0x34))] } ∧
      ∃ t, step { fullBody with requests := [.one (.word (requestWord 0#2 0x34))] } = .next t :=
  ⟨⟨fullBody_inv, trivial⟩, _, rfl⟩
theorem witness_BurstRunsAsItsBytes : fullBody.cfg.wf := wf_defaults
theorem witness_OutboundIgnoresDecoder :
    isOutbound (.encode 0 0 []) = true ∧ fullBody.cfg = State.reset.cfg ∧ ∃ t, exec (.encode 0 0 []) State.reset = .next t :=
  ⟨rfl, rfl, _, rfl⟩
/-- The first and the last code that is read back. -/
theorem witness_OutputCodes : eventOfCode 0#3 = some .none ∧ eventOfCode 6#3 = some .resync := by decide

end Sys2Proof.Tests
end

/-! ## The two directions (20_memory.md rule R52)

An inbound instruction changes the decoder and an outbound one changes `OUT`; each reads the parameters and its own part of the
state only. So a run restricted to one direction simulates the whole run, as far as that direction can see. -/

namespace Sys2Proof.Machine

/-! ### The outputs that each direction sees -/

@[simp] theorem framesOf_append (xs ys : List Outputs) : framesOf (xs ++ ys) = framesOf xs ++ framesOf ys :=
  List.filterMap_append

@[simp] theorem eventsOf_append (xs ys : List Outputs) : eventsOf (xs ++ ys) = eventsOf xs ++ eventsOf ys := by
  simp only [eventsOf, List.map_append, List.filter_append]

@[simp] theorem respsOf_append (xs ys : List Outputs) : respsOf (xs ++ ys) = respsOf xs ++ respsOf ys :=
  List.filterMap_append

/-! ### What an inbound instruction does -/

/-- What an inbound instruction makes of the machine: its decoder becomes `d`, and the outputs `rs` join the results. -/
def State.received (s : State) (d : Decoder) (rs : List Outputs) : State := { s with dec := d, results := s.results ++ rs }

@[simp] theorem State.received_cfg (s : State) (d : Decoder) (rs : List Outputs) : (s.received d rs).cfg = s.cfg := rfl
@[simp] theorem State.received_dec (s : State) (d : Decoder) (rs : List Outputs) : (s.received d rs).dec = d := rfl
@[simp] theorem State.received_out (s : State) (d : Decoder) (rs : List Outputs) : (s.received d rs).out = s.out := rfl
@[simp] theorem State.received_results (s : State) (d : Decoder) (rs : List Outputs) :
    (s.received d rs).results = s.results ++ rs := rfl

theorem State.decoded_received (s : State) (d d' : Decoder) (o : Outputs) (rs : List Outputs) :
    (s.decoded d o).received d' rs = s.received d' (o :: rs) := by
  simp only [State.received, State.decoded, List.append_assoc, List.singleton_append]

theorem Decoder.place_resp {cfg : Config} {d d' : Decoder} {v : Byte} {o : Outputs} (h : d.place cfg v = .ok (d', o)) :
    o.resp = none := by
  rcases Decoder.place_cases h with
    ⟨_, _, rfl⟩ | ⟨_, _, rfl⟩ | ⟨_, _, _, _, rfl⟩ | ⟨_, _, _, _, rfl⟩ | ⟨_, _, hcheck⟩
  · rfl
  · rfl
  · rfl
  · rfl
  · rcases Decoder.check_cases hcheck with ⟨_, _, _, _, rfl⟩ | ⟨_, _, rfl⟩ <;> rfl

/-- A FEED gives no encode response (60_exceptions.md rule R162). -/
theorem Decoder.feed_resp {cfg : Config} {d d' : Decoder} {b : Byte} {o : Outputs} (h : d.feed cfg b = .ok (d', o)) :
    o.resp = none := by
  rcases Decoder.feed_split cfg d b with
    ⟨_, hf⟩ | ⟨_, _, hf⟩ | ⟨_, _, _, _, hf⟩ | ⟨_, _, _, hf⟩ | ⟨_, _, _, hf⟩
  case inr.inr.inr.inr => exact Decoder.place_resp (hf.symm.trans h)
  all_goals
    cases hf.symm.trans h
    rfl

/-- FEEDs read the parameters and the decoder only; they change the decoder and give no encode response. -/
theorem feedBytes_received {bs : List Byte} {s t : State} (h : feedBytes bs s = .next t) :
    ∃ d rs, respsOf rs = [] ∧ ∀ u : State, u.cfg = s.cfg → u.dec = s.dec → feedBytes bs u = .next (u.received d rs) := by
  induction bs generalizing s with
  | nil =>
    refine ⟨s.dec, [], rfl, fun u _ hd => ?_⟩
    simp only [feedBytes, State.received, List.append_nil, ← hd]
  | cons b bs ih =>
    simp only [feedBytes] at h
    split at h
    case h_1 v hv =>
      obtain ⟨d, o, hfeed, rfl⟩ := State.feedByte_next hv
      obtain ⟨d', rs, hrs, hrun⟩ := ih h
      refine ⟨d', o :: rs, by simpa [respsOf, Decoder.feed_resp hfeed] using hrs, fun u hc hd => ?_⟩
      have hu : u.feedByte b = .next (u.decoded d o) := State.feedByte_of_feed (hc ▸ hd ▸ hfeed)
      rw [feedBytes_cons_next hu, hrun (u.decoded d o) hc rfl, State.decoded_received]
    all_goals cases h

/-- The wire bytes that an inbound instruction takes at a position (30_encoding.md rules R67 and R68); RESET takes none. -/
def wireBytes (cfg : Config) (pos : Position) : Instr → List Byte
  | .feed b | .inLiteral b | .inUnsynced b => [b]
  | .inHeader => [cfg.header]
  | .inEscPrefix => [cfg.esc]
  | .inEscSub => pairBytes cfg pos cfg.sub
  | .inEscEsc => pairBytes cfg pos cfg.esc
  | .inEscHeader => pairBytes cfg pos cfg.header
  | .inEscBad x => pairBytes cfg pos x
  | .reset | .encode _ _ _ | .passthru _ | .outUnitCtrl _ | .outUnitPt _ | .outUnitReserved _ _ => []

theorem exec_eq_feedBytes {i : Instr} (s : State) (hi : isOutbound i = false) (hr : i ≠ .reset) :
    exec i s = feedBytes (wireBytes s.cfg s.position i) s := by
  cases i with
  | feed b => exact (feedBytes_singleton b s).symm
  | reset => exact absurd rfl hr
  | encode | passthru | outUnitCtrl | outUnitPt | outUnitReserved => cases hi
  | inHeader | inEscPrefix | inEscSub | inEscEsc | inEscHeader | inEscBad | inLiteral | inUnsynced => rfl

/-- An inbound instruction reads the parameters and the decoder only; it changes the decoder and gives no encode response. -/
theorem exec_inbound {i : Instr} {s t : State} (hi : isOutbound i = false) (h : exec i s = .next t) :
    ∃ d rs, respsOf rs = [] ∧ ∀ u : State, u.cfg = s.cfg → u.dec = s.dec → exec i u = .next (u.received d rs) := by
  by_cases hr : i = .reset
  · subst hr
    exact ⟨{ Decoder.reset with buf := s.dec.buf }, [.idle], rfl, fun u _ hd => hd ▸ rfl⟩
  · rw [exec_eq_feedBytes s hi hr] at h
    obtain ⟨d, rs, hrs, hrun⟩ := feedBytes_received h
    refine ⟨d, rs, hrs, fun u hc hd => ?_⟩
    have hpos : u.position = s.position := by simp only [State.position, hd]
    rw [exec_eq_feedBytes u hi hr, hc, hpos, hrun u hc hd]

/-! ### What an outbound instruction does -/

/-- What an outbound instruction makes of the machine: `bytes` join `OUT`, and the outputs `rs` join the results. -/
def State.sent (s : State) (bytes : List Byte) (rs : List Outputs) : State :=
  { s with out := s.out ++ bytes, results := s.results ++ rs }

@[simp] theorem State.sent_cfg (s : State) (bytes : List Byte) (rs : List Outputs) : (s.sent bytes rs).cfg = s.cfg := rfl
@[simp] theorem State.sent_dec (s : State) (bytes : List Byte) (rs : List Outputs) : (s.sent bytes rs).dec = s.dec := rfl
@[simp] theorem State.sent_out (s : State) (bytes : List Byte) (rs : List Outputs) : (s.sent bytes rs).out = s.out ++ bytes := rfl
@[simp] theorem State.sent_results (s : State) (bytes : List Byte) (rs : List Outputs) :
    (s.sent bytes rs).results = s.results ++ rs := rfl

/-- The outputs of an outbound instruction (60_exceptions.md rule R162); a unit has none of its own. -/
def answersOf (cfg : Config) : Instr → List Outputs
  | .encode _ _ p => [.respond (if p.length ≤ cfg.maxPayload then .ok else .payloadTooLarge)]
  | .passthru _ => [.idle]
  | .feed _ | .reset | .outUnitCtrl _ | .outUnitPt _ | .outUnitReserved _ _ => []
  | .inHeader | .inEscPrefix | .inEscSub | .inEscEsc | .inEscHeader | .inEscBad _ | .inLiteral _ | .inUnsynced _ => []

@[simp] theorem framesOf_answersOf (cfg : Config) (i : Instr) : framesOf (answersOf cfg i) = [] := by cases i <;> rfl
@[simp] theorem eventsOf_answersOf (cfg : Config) (i : Instr) : eventsOf (answersOf cfg i) = [] := by cases i <;> rfl

theorem exec_encode (c d : Byte) (p : List Byte) (s : State) :
    exec (.encode c d p) s = .next (s.sent (emittedBy s.cfg (.encode c d p)) (answersOf s.cfg (.encode c d p))) := by
  show execEncode c d p s = _
  by_cases hp : p.length ≤ s.cfg.maxPayload
  · simp only [execEncode, emittedBy, answersOf, hp, Nat.not_lt.mpr hp, if_true, if_false, muxCtrlAll_eq, State.finish,
      State.sent]
  · simp only [execEncode, emittedBy, answersOf, hp, Nat.lt_of_not_le hp, if_true, if_false, State.finish, State.sent,
      List.append_nil]

/-- An outbound instruction that is not refused reads the parameters only, and changes nothing but `OUT` and the results. -/
theorem exec_outbound {i : Instr} {s t : State} (hi : isOutbound i = true) (h : exec i s = .next t) (u : State) :
    exec i u = .next (u.sent (emittedBy u.cfg i) (answersOf u.cfg i)) := by
  cases i with
  | encode c d p => exact exec_encode c d p u
  | passthru | outUnitCtrl | outUnitPt =>
    simp [exec, execPassthru, execOutUnitCtrl, execOutUnitPt, State.muxCtrl, State.muxPt, State.emit, State.finish,
      State.sent, emittedBy, answersOf]
  | outUnitReserved => cases h
  | feed | reset | inHeader | inEscPrefix | inEscSub | inEscEsc | inEscHeader | inEscBad | inLiteral | inUnsynced => cases hi

/-! ### The simulation -/

/-- A run restricted to the instructions of `p` simulates the whole run, where each instruction of `p` keeps the relation when both
sides run it, and every other instruction keeps it when only the whole run does. -/
theorem execAll_filter_simulates {p : Instr → Bool} {R : State → State → Prop}
    (hkeep : ∀ {i s t a}, p i = true → R s a → exec i s = .next t → ∃ b, exec i a = .next b ∧ R t b)
    (hdrop : ∀ {i s t a}, p i = false → R s a → exec i s = .next t → R t a)
    {ops : List Instr} {s t a : State} (hR : R s a) (h : execAll ops s = .next t) :
    ∃ b, execAll (ops.filter p) a = .next b ∧ R t b := by
  induction ops generalizing s a with
  | nil =>
    cases h
    exact ⟨a, rfl, hR⟩
  | cons i ops ih =>
    simp only [execAll] at h
    split at h
    case h_1 v hv =>
      cases hp : p i
      · rw [List.filter_cons_of_neg (by simp [hp])]
        exact ih (hdrop hp hR hv) h
      · obtain ⟨a', ha', hR'⟩ := hkeep hp hR hv
        rw [List.filter_cons_of_pos hp]
        simp only [execAll, ha']
        exact ih hR' h
    all_goals cases h

/-- `a` is what the inbound direction sees of `s`, and its `OUT` is still `out`. -/
structure InboundView (out : List Byte) (s a : State) : Prop where
  cfg : a.cfg = s.cfg
  dec : a.dec = s.dec
  frames : framesOf a.results = framesOf s.results
  events : eventsOf a.results = eventsOf s.results
  out : a.out = out

theorem InboundView.of_inbound {out : List Byte} {i : Instr} {s t a : State} (hi : isOutbound i = false)
    (hv : InboundView out s a) (h : exec i s = .next t) : ∃ b, exec i a = .next b ∧ InboundView out t b := by
  obtain ⟨d, rs, -, hrun⟩ := exec_inbound hi h
  cases h.symm.trans (hrun s rfl rfl)
  exact ⟨a.received d rs, hrun a hv.cfg hv.dec, hv.cfg, rfl, by simp [hv.frames], by simp [hv.events], hv.out⟩

theorem InboundView.of_outbound {out : List Byte} {i : Instr} {s t a : State} (hi : isOutbound i = true)
    (hv : InboundView out s a) (h : exec i s = .next t) : InboundView out t a := by
  cases h.symm.trans (exec_outbound hi h s)
  exact ⟨hv.cfg, hv.dec, by simp [hv.frames], by simp [hv.events], hv.out⟩

/-- `b` is what the outbound direction sees of `s`, and its decoder is still `dec`. -/
structure OutboundView (dec : Decoder) (s b : State) : Prop where
  cfg : b.cfg = s.cfg
  out : b.out = s.out
  resps : respsOf b.results = respsOf s.results
  dec : b.dec = dec

theorem OutboundView.of_outbound {dec : Decoder} {i : Instr} {s t a : State} (hi : isOutbound i = true)
    (hv : OutboundView dec s a) (h : exec i s = .next t) : ∃ b, exec i a = .next b ∧ OutboundView dec t b := by
  cases h.symm.trans (exec_outbound hi h s)
  exact ⟨_, exec_outbound hi h a, hv.cfg, by simp [hv.out, hv.cfg], by simp [hv.resps, hv.cfg], hv.dec⟩

theorem OutboundView.of_inbound {dec : Decoder} {i : Instr} {s t a : State} (hi : isOutbound i = false)
    (hv : OutboundView dec s a) (h : exec i s = .next t) : OutboundView dec t a := by
  obtain ⟨d, rs, hrs, hrun⟩ := exec_inbound hi h
  cases h.symm.trans (hrun s rfl rfl)
  exact ⟨hv.cfg, hv.out, by simp [hv.resps, hrs], hv.dec⟩

/-- Settles O31, by two simulations of the whole run: one by its inbound instructions, one by its outbound ones. -/
theorem directionsAreIndependent : Obligations.DirectionsAreIndependent := by
  intro s t ops h
  obtain ⟨a, ha, hin⟩ := execAll_filter_simulates (p := fun i => !isOutbound i) (R := InboundView s.out) (a := s)
    (fun hp => InboundView.of_inbound (by simpa using hp)) (fun hp => InboundView.of_outbound (by simpa using hp))
    ⟨rfl, rfl, rfl, rfl, rfl⟩ h
  obtain ⟨b, hb, hout⟩ := execAll_filter_simulates (p := isOutbound) (R := OutboundView s.dec) (a := s)
    OutboundView.of_outbound OutboundView.of_inbound ⟨rfl, rfl, rfl, rfl⟩ h
  exact ⟨a, b, ha, hb, hin.dec.symm, hin.out, hin.frames.symm, hin.events.symm, hout.out.symm, hout.dec, hout.resps.symm⟩

end Sys2Proof.Machine

/-! ## Escaping and the checksum (40_escape_checksum.md)

Every escaped byte is one of three runs of wire bytes, and the pair-wise decoding takes such a run off the front of a stream whole;
so both laws of escaping go byte by byte. The checksum is a sum in the group of bytes mod 256. -/

namespace Sys2Proof.Machine

/-! ### Escaping -/

theorem escapeByte_header (cfg : Config) : escapeByte cfg cfg.header = [cfg.esc, cfg.sub] := if_pos rfl

theorem escapeByte_esc {cfg : Config} (h : cfg.esc ≠ cfg.header) : escapeByte cfg cfg.esc = [cfg.esc, cfg.esc] := by
  rw [escapeByte, if_neg h, if_pos rfl]

theorem escapeByte_of_ne {cfg : Config} {v : Byte} (hh : v ≠ cfg.header) (he : v ≠ cfg.esc) : escapeByte cfg v = [v] := by
  rw [escapeByte, if_neg hh, if_neg he]

/-- The three cases of rule R83. -/
theorem header_notMem_escapeByte {cfg : Config} (hhe : cfg.header ≠ cfg.esc) (hsh : cfg.sub ≠ cfg.header) (v : Byte) :
    cfg.header ∉ escapeByte cfg v := by
  by_cases hv : v = cfg.header
  · subst hv
    simp [escapeByte_header, hhe, hsh.symm]
  · by_cases hv' : v = cfg.esc
    · subst hv'
      simp [escapeByte_esc hv, hhe]
    · simp [escapeByte_of_ne hv hv', Ne.symm hv]

theorem header_notMem_escapeAll {cfg : Config} (hhe : cfg.header ≠ cfg.esc) (hsh : cfg.sub ≠ cfg.header) (xs : List Byte) :
    cfg.header ∉ escapeAll cfg xs := by
  induction xs with
  | nil => exact List.not_mem_nil
  | cons v vs ih => exact fun h => (List.mem_append.mp h).elim (header_notMem_escapeByte hhe hsh v) ih

/-! ### The pair-wise decoding -/

@[simp] theorem unescapeByte_sub (cfg : Config) : unescapeByte cfg cfg.sub = some cfg.header := if_pos rfl

theorem unescapeByte_esc {cfg : Config} (h : cfg.esc ≠ cfg.sub) : unescapeByte cfg cfg.esc = some cfg.esc := by
  rw [unescapeByte, if_neg h, if_pos rfl]

theorem unescapeAll_pair {cfg : Config} {x v : Byte} (hx : unescapeByte cfg x = some v) (rest : List Byte) :
    unescapeAll cfg (cfg.esc :: x :: rest) = (unescapeAll cfg rest).map (v :: ·) := by
  simp only [unescapeAll, if_true, hx]
  cases unescapeAll cfg rest <;> rfl

theorem unescapeAll_cons_of_ne {cfg : Config} {w : Byte} (hw : w ≠ cfg.esc) (rest : List Byte) :
    unescapeAll cfg (w :: rest) = (unescapeAll cfg rest).map (w :: ·) := by
  cases rest with
  | nil => simp only [unescapeAll, if_neg hw, Option.map_some]
  | cons x rest =>
    simp only [unescapeAll, if_neg hw]
    cases unescapeAll cfg (x :: rest) <;> rfl

/-- The decoding takes `Esc(v)` off the front of a stream whole, and gives `v` for it: no byte of it starts another pair. -/
theorem unescapeAll_escapeByte_append {cfg : Config} (hhe : cfg.header ≠ cfg.esc) (hse : cfg.sub ≠ cfg.esc) (v : Byte)
    (rest : List Byte) : unescapeAll cfg (escapeByte cfg v ++ rest) = (unescapeAll cfg rest).map (v :: ·) := by
  by_cases hv : v = cfg.header
  · subst hv
    rw [escapeByte_header]
    exact unescapeAll_pair (unescapeByte_sub cfg) rest
  · by_cases hv' : v = cfg.esc
    · subst hv'
      rw [escapeByte_esc hhe.symm]
      exact unescapeAll_pair (unescapeByte_esc hse.symm) rest
    · rw [escapeByte_of_ne hv hv']
      exact unescapeAll_cons_of_ne hv' rest

/-! ### The sum of a byte list -/

@[simp] theorem sumBytes_nil : sumBytes [] = 0#8 := rfl
@[simp] theorem sumBytes_cons (b : Byte) (bs : List Byte) : sumBytes (b :: bs) = b + sumBytes bs := rfl

@[simp] theorem sumBytes_append (xs ys : List Byte) : sumBytes (xs ++ ys) = sumBytes xs + sumBytes ys := by
  induction xs with
  | nil => exact (BitVec.zero_add _).symm
  | cons x xs ih => rw [List.cons_append, sumBytes_cons, sumBytes_cons, ih, BitVec.add_assoc]

/-- Reducing after every add is reducing once at the end. -/
theorem sumBytes_eq_ofNat_sum (xs : List Byte) : sumBytes xs = BitVec.ofNat 8 (xs.map BitVec.toNat).sum := by
  induction xs with
  | nil => rfl
  | cons x xs ih => rw [sumBytes_cons, ih, List.map_cons, List.sum_cons, BitVec.ofNat_add, BitVec.ofNat_toNat, BitVec.setWidth_eq]

theorem sumBytes_perm {xs ys : List Byte} (h : xs.Perm ys) : sumBytes xs = sumBytes ys := by
  rw [sumBytes_eq_ofNat_sum, sumBytes_eq_ofNat_sum, (h.map BitVec.toNat).sum_nat]

/-- The accumulator holds the sum of its start value and of the bytes it has taken. -/
theorem foldl_accumulate (start : Byte) (xs : List Byte) : xs.foldl accumulate start = sumBytes (start :: xs) := by
  induction xs generalizing start with
  | nil => exact (BitVec.add_zero start).symm
  | cons x xs ih => rw [List.foldl_cons, ih, accumulate, sumBytes_cons, sumBytes_cons, sumBytes_cons, BitVec.add_assoc]

/-- One byte changed from `v` to `w` changes the sum by their difference. -/
theorem sumBytes_replace (xs ys : List Byte) (v w : Byte) :
    sumBytes (xs ++ w :: ys) = sumBytes (xs ++ v :: ys) + (w - v) := by
  simp only [sumBytes_append, sumBytes_cons]
  grind

/-! ### Flipping one bit -/

/-- Words with no bit in common add without a carry. -/
theorem xor_eq_add_of_and_eq_zero {w : Nat} {x y : BitVec w} (h : x &&& y = 0#w) : x ^^^ y = x + y := by
  rw [BitVec.add_eq_or_of_and_eq_zero x y h]
  apply BitVec.eq_of_getLsbD_eq
  intro i _
  have hbit := congrArg (BitVec.getLsbD · i) h
  revert hbit
  cases hx : x.getLsbD i <;> simp [hx]

/-- Setting the clear bit `k` adds `2^k`; clearing the set bit `k` is the way back, so it takes `2^k` away. -/
theorem xor_twoPow {w : Nat} (x : BitVec w) (k : Nat) :
    x ^^^ BitVec.twoPow w k = if x.getLsbD k then x - BitVec.twoPow w k else x + BitVec.twoPow w k := by
  split
  next hset =>
    have hclear : (x ^^^ BitVec.twoPow w k) &&& BitVec.twoPow w k = 0#w := by
      have hk := BitVec.lt_of_getLsbD hset
      rw [BitVec.and_twoPow, BitVec.getLsbD_xor, hset, BitVec.getLsbD_twoPow]
      simp [hk]
    have hback : x = (x ^^^ BitVec.twoPow w k) + BitVec.twoPow w k := by
      rw [← xor_eq_add_of_and_eq_zero hclear, BitVec.xor_assoc, BitVec.xor_self, BitVec.xor_zero]
    exact (BitVec.sub_eq_iff_eq_add.mpr hback).symm
  next hclear => exact xor_eq_add_of_and_eq_zero (by rw [BitVec.and_twoPow, if_neg hclear])

theorem twoPow_ne_zero {w k : Nat} (hk : k < w) : BitVec.twoPow w k ≠ 0#w := by
  intro h
  have hbit := congrArg (BitVec.getLsbD · k) h
  simp [hk] at hbit

/-! ### The statements -/

/-- Settles O42, by induction on the list: each byte's escape is taken off whole. -/
theorem unescapeInvertsEscape : Obligations.UnescapeInvertsEscape := by
  intro cfg xs hhe _ hse
  induction xs with
  | nil => rfl
  | cons v vs ih => rw [escapeAll, unescapeAll_escapeByte_append hhe hse, ih, Option.map_some]

/-- Settles O43: the accumulator is the sum, and the sum is one of natural numbers, which no reordering changes. -/
theorem checksumIsIncremental : Obligations.ChecksumIsIncremental :=
  ⟨foldl_accumulate, sumBytes_eq_ofNat_sum, fun cfg c d p => foldl_accumulate cfg.header ([declaredLength p.length, c, d] ++ p),
    fun start xs ys h => by rw [foldl_accumulate, foldl_accumulate, sumBytes_perm (h.cons start)]⟩

/-- Settles O44: a change adds its difference to the sum, a bit flip is a change by plus or minus `2^k`, and a sum has no order. -/
theorem checksumErrorDetection : Obligations.ChecksumErrorDetection := by
  refine ⟨fun xs ys v w => ⟨sumBytes_replace xs ys v w, fun hne hsum => hne ?_⟩, fun v k hk => ?_, fun xs ys zs v w e => ?_,
    fun _ _ => sumBytes_perm⟩
  · rw [sumBytes_replace xs ys v w] at hsum
    grind
  · rw [← BitVec.twoPow_eq, xor_twoPow]
    refine ⟨twoPow_ne_zero hk, ?_⟩
    split
    · exact .inr (by grind)
    · exact .inl (by grind)
  · simp only [sumBytes_append, sumBytes_cons]
    grind

/-- Settles O41: the cases of rule R83 for one byte, and an induction for a list of them. -/
theorem escapedBytesExcludeHeader : Obligations.EscapedBytesExcludeHeader :=
  fun _ v xs hhe hsh => ⟨header_notMem_escapeByte hhe hsh v, header_notMem_escapeAll hhe hsh xs⟩

end Sys2Proof.Machine

/-! ## The inbound reassembler (41_inbound_reassembler.md)

A FEED takes one of five kinds of byte (30_encoding.md rule R68); one that resolves to a logical byte is placed. So each rule is
an equation for the decoder, carried over to the machine; and a frame is a header, then the placing of its logical bytes one by one,
however each of them is escaped. -/

namespace Sys2Proof.Machine

/-! ### From the decoder to the machine -/

/-- An inbound instruction that takes one wire byte does what the decoder does with that byte. -/
theorem exec_of_feed {i : Instr} {s : State} {b : Byte} {d : Decoder} {o : Outputs} (hi : isOutbound i = false)
    (hr : i ≠ .reset) (hw : wireBytes s.cfg s.position i = [b]) (h : s.dec.feed s.cfg b = .ok (d, o)) :
    exec i s = .next (s.decoded d o) := by
  rw [exec_eq_feedBytes s hi hr, hw, feedBytes_singleton, State.feedByte_of_feed h]

theorem exec_feed_of_feed {s : State} {b : Byte} {d : Decoder} {o : Outputs} (h : s.dec.feed s.cfg b = .ok (d, o)) :
    exec (.feed b) s = .next (s.decoded d o) := exec_of_feed rfl nofun rfl h

/-- A FEED on the machine, read back from the one output it has added. -/
theorem exec_feed_next {s t : State} {b : Byte} {o : Outputs} (h : exec (.feed b) s = .next t)
    (ho : t.results = s.results ++ [o]) : ∃ d, s.dec.feed s.cfg b = .ok (d, o) ∧ t = s.decoded d o := by
  obtain ⟨d, o', hf, rfl⟩ := State.feedByte_next h
  cases List.append_cancel_left ho
  exact ⟨d, hf, rfl⟩

/-! ### The bytes that are no logical byte -/

theorem Decoder.feed_header (cfg : Config) (d : Decoder) : d.feed cfg cfg.header = .ok (d.frameStart cfg) := if_pos rfl

theorem Decoder.feed_unsynced {cfg : Config} {d : Decoder} {b : Byte} (hp : d.phase = .awaitHeader) (hb : b ≠ cfg.header) :
    d.feed cfg b = .ok (d, .signal .unsyncedByte) := by rw [Decoder.feed, if_neg hb, if_pos hp]

theorem Decoder.feed_escPrefix {cfg : Config} {d : Decoder} (hc : cfg.header ≠ cfg.esc) (hp : d.phase ≠ .awaitHeader)
    (he : d.esc = false) : d.feed cfg cfg.esc = .ok (d.setEsc, .idle) := by
  rw [Decoder.feed, if_neg hc.symm, if_neg hp, if_pos ⟨he, rfl⟩]

/-! ### The bytes that resolve to a logical byte -/

theorem Resolves.literal {cfg : Config} {b : Byte} (hh : b ≠ cfg.header) (he : b ≠ cfg.esc) : Resolves cfg false b b :=
  ⟨hh, .inl ⟨rfl, he, rfl⟩⟩

/-- The second byte of an escape pair resolves to what `Unesc` gives for it (rules R104 and R105). -/
theorem Resolves.of_unescapeByte {cfg : Config} {x v : Byte} (hx : x ≠ cfg.header) (h : unescapeByte cfg x = some v) :
    Resolves cfg true x v := by
  simp only [unescapeByte] at h
  split at h
  next hs =>
    cases h
    exact ⟨hx, .inr (.inl ⟨rfl, hs, rfl⟩)⟩
  next hs =>
    split at h
    next he =>
      cases h
      exact ⟨hx, .inr (.inr (.inl ⟨rfl, hs, he, rfl⟩))⟩
    next => cases h

theorem Decoder.clearEsc_of_esc {d : Decoder} (h : d.esc = false) : d.clearEsc = d := by rw [Decoder.clearEsc, ← h]

theorem Decoder.clearEsc_setEsc {d : Decoder} (h : d.esc = false) : d.setEsc.clearEsc = d := Decoder.clearEsc_of_esc h

/-! ### Where a logical byte is placed -/

theorem Decoder.place_length {cfg : Config} {d : Decoder} (v : Byte) (hp : d.phase = .awaitLength) :
    d.place cfg v = .ok ({ d with len := v, csum := d.csum + v, idx := 0, phase := .body }, .idle) := by
  simp only [Decoder.place, hp, accumulate]

theorem Decoder.place_body {cfg : Config} {d : Decoder} (v : Byte) (hp : d.phase = .body) (hi : d.idx < d.len.toNat)
    (hc : d.idx < cfg.bufCap) :
    d.place cfg v = .ok ({ d with buf := bufWrite d.buf d.idx v, idx := d.idx + 1, csum := d.csum + v }, .idle) := by
  simp only [Decoder.place, hp, hi, Nat.not_le.mpr hc, if_true, if_false, accumulate]

theorem Decoder.place_overflow {cfg : Config} {d : Decoder} (v : Byte) (hp : d.phase = .body) (hi : d.idx < d.len.toNat)
    (hc : cfg.bufCap ≤ d.idx) : d.place cfg v = .ok (d.error .bufferOverflow) := by
  simp only [Decoder.place, hp, hi, hc, if_true]

theorem Decoder.place_checksum {cfg : Config} {d : Decoder} (v : Byte) (hp : d.phase = .body) (hi : d.idx = d.len.toNat) :
    d.place cfg v = d.check cfg v := by
  simp only [Decoder.place, hp, hi, Nat.lt_irrefl, if_false]

theorem Decoder.check_mismatch {cfg : Config} {d : Decoder} {v : Byte} (h : v ≠ d.csum) :
    d.check cfg v = .ok (d.error .checksumMismatch) := by rw [Decoder.check, if_neg h]

theorem Decoder.check_match {cfg : Config} {d : Decoder} {bytes : List Byte}
    (h : bufSlice cfg.bufCap d.buf 0 d.len.toNat = .ok bytes) :
    d.check cfg d.csum = .ok ({ d with phase := .awaitHeader }, .deliver ⟨d.len, bytes⟩) := by
  simp only [Decoder.check, if_true, h]

/-- A byte that resolves to a logical byte is placed where the rules R108 to R112 say, and nowhere else. -/
theorem Placed.of_feed {cfg : Config} {d d' : Decoder} {b v : Byte} {o : Outputs} (hd : IndexInv cfg d)
    (hp : d.phase ≠ .awaitHeader) (hr : Resolves cfg d.esc b v) (h : d.feed cfg b = .ok (d', o)) : Placed cfg d v d' o := by
  rw [Decoder.feed_of_resolves hp hr] at h
  rcases Decoder.place_cases h with
    ⟨hp', _⟩ | ⟨hp', rfl, rfl⟩ | ⟨hp', hi, hc, rfl, rfl⟩ | ⟨hp', hi, hc, rfl, rfl⟩ | ⟨hp', hi, hcheck⟩
  · exact absurd hp' hp
  · exact .inl ⟨hp', rfl, rfl⟩
  · exact .inr (.inl ⟨hp', hi, hc, rfl, rfl⟩)
  · exact .inr (.inr (.inl ⟨hp', hi, hc, rfl, rfl⟩))
  · have hidx : d.idx = d.len.toNat := Nat.le_antisymm (hd hp').1 (Nat.le_of_not_lt hi)
    rcases Decoder.check_cases hcheck with ⟨hv, rfl, bytes, hs, rfl⟩ | ⟨hv, rfl, rfl⟩
    · obtain ⟨hlen, hread⟩ := bufSlice_ok hs
      exact .inr (.inr (.inr (.inl ⟨hp', hidx, hv, rfl, bytes, rfl, hlen, by simpa using hread⟩)))
    · exact .inr (.inr (.inr (.inr ⟨hp', hidx, hv, rfl, rfl⟩)))

/-! ### What a FEED signals -/

@[simp] theorem framesOf_signal_cons (ev : DecEvent) (rs : List Outputs) : framesOf (.signal ev :: rs) = framesOf rs := rfl
@[simp] theorem framesOf_deliver (f : Frame) : framesOf [.deliver f] = [f] := rfl

@[simp] theorem framesOf_replicate_idle (n : Nat) : framesOf (List.replicate n .idle) = [] :=
  List.filterMap_replicate_of_none rfl

/-- A placed byte delivers a frame exactly when it is the matching checksum byte. -/
theorem Placed.delivers_iff {cfg : Config} {d d' : Decoder} {v : Byte} {o : Outputs} (h : Placed cfg d v d' o) :
    o.frame ≠ none ↔ d.phase = .body ∧ d.idx = d.len.toNat ∧ v = d.csum := by
  rcases h with ⟨hp, rfl, _⟩ | ⟨_, hi, _, rfl, _⟩ | ⟨_, hi, _, rfl, _⟩ | ⟨hp, hi, hv, _, _, rfl, _⟩ | ⟨_, _, hv, rfl, _⟩
  · simp [hp]
  · simp [Nat.ne_of_lt hi]
  · simp [Nat.ne_of_lt hi]
  · simp [hp, hi, hv]
  · simp [hv]

theorem Placed.frame_iff_event {cfg : Config} {d d' : Decoder} {v : Byte} {o : Outputs} (h : Placed cfg d v d' o) :
    o.frame ≠ none ↔ o.event = .frame := by
  rcases h with ⟨_, rfl, _⟩ | ⟨_, _, _, rfl, _⟩ | ⟨_, _, _, rfl, _⟩ | ⟨_, _, _, _, _, rfl, _⟩ | ⟨_, _, _, rfl, _⟩ <;> simp

theorem Placed.phase_of_event {cfg : Config} {d d' : Decoder} {v : Byte} {o : Outputs} (h : Placed cfg d v d' o)
    (he : o.event ≠ .none) : d'.phase = .awaitHeader := by
  rcases h with ⟨_, rfl, _⟩ | ⟨_, _, _, rfl, _⟩ | ⟨_, _, _, _, rfl⟩ | ⟨_, _, _, rfl, _⟩ | ⟨_, _, _, _, rfl⟩
  · exact absurd rfl he
  · exact absurd rfl he
  all_goals rfl

/-- A byte that is not placed delivers nothing, and leaves a frame in progress only where it signals `NONE` or `RESYNC`. -/
theorem Decoder.feed_unplaced_or_placed {cfg : Config} {d d' : Decoder} {b : Byte} {o : Outputs} (hd : IndexInv cfg d)
    (h : d.feed cfg b = .ok (d', o)) :
    (o.frame = none ∧ o.event ≠ .frame ∧ (o.event = .none ∨ o.event = .resync ∨ d'.phase = .awaitHeader)) ∨
      ∃ v, Resolves cfg d.esc b v ∧ Placed cfg d v d' o := by
  rcases Decoder.feed_split cfg d b with
    ⟨_, hf⟩ | ⟨_, hp, hf⟩ | ⟨_, _, _, _, hf⟩ | ⟨_, _, _, hf⟩ | ⟨hp, v, hr, _⟩
  · cases hf.symm.trans h
    by_cases hp : d.phase = .awaitHeader <;> simp [hp]
  · cases hf.symm.trans h
    simp [hp]
  · cases hf.symm.trans h
    simp
  · cases hf.symm.trans h
    simp
  · exact .inr ⟨v, hr, Placed.of_feed hd hp hr h⟩

/-- Only a body byte beyond the buffer overflows it. -/
theorem Decoder.feed_bufferOverflow {cfg : Config} {d d' : Decoder} {b : Byte} {o : Outputs}
    (h : d.feed cfg b = .ok (d', o)) (ho : o.event = .bufferOverflow) : cfg.bufCap ≤ d.idx ∧ d.idx < d.len.toNat := by
  rcases Decoder.feed_split cfg d b with
    ⟨_, hf⟩ | ⟨_, _, hf⟩ | ⟨_, _, _, _, hf⟩ | ⟨_, _, _, hf⟩ | ⟨_, v, _, hf⟩
  · cases hf.symm.trans h
    by_cases hp : d.phase = .awaitHeader <;> simp [hp] at ho
  case inr.inr.inr.inr =>
    rcases Decoder.place_cases (hf.symm.trans h) with
      ⟨_, _, rfl⟩ | ⟨_, _, rfl⟩ | ⟨_, _, _, _, rfl⟩ | ⟨_, hi, hc, _, _⟩ | ⟨_, _, hcheck⟩
    case inr.inr.inr.inl => exact ⟨hc, hi⟩
    case inr.inr.inr.inr => rcases Decoder.check_cases hcheck with ⟨_, _, _, _, rfl⟩ | ⟨_, _, rfl⟩ <;> cases ho
    all_goals cases ho
  all_goals
    cases hf.symm.trans h
    cases ho

/-! ### Runs of wire bytes -/

theorem State.received_received (s : State) (d d' : Decoder) (rs rs' : List Outputs) :
    (s.received d rs).received d' rs' = s.received d' (rs ++ rs') := by
  simp only [State.received, List.append_assoc]

theorem feedBytes_append_received {xs ys : List Byte} {s : State} {d d' : Decoder} {rs rs' : List Outputs}
    (hx : feedBytes xs s = .next (s.received d rs))
    (hy : feedBytes ys (s.received d rs) = .next ((s.received d rs).received d' rs')) :
    feedBytes (xs ++ ys) s = .next (s.received d' (rs ++ rs')) := by
  rw [feedBytes_append_next hx, hy, State.received_received]

theorem feedBytes_singleton_received {s : State} {b : Byte} {d : Decoder} {o : Outputs}
    (h : s.dec.feed s.cfg b = .ok (d, o)) : feedBytes [b] s = .next (s.received d [o]) := by
  rw [feedBytes_singleton, State.feedByte_of_feed h]
  rfl

/-- An escape pair places the logical byte it stands for; its `ESC` signals nothing. -/
theorem feedBytes_pair {s : State} {x v : Byte} {d : Decoder} {o : Outputs} (hc : s.cfg.header ≠ s.cfg.esc)
    (hp : s.dec.phase ≠ .awaitHeader) (he : s.dec.esc = false) (hx : x ≠ s.cfg.header)
    (hv : unescapeByte s.cfg x = some v) (h : s.dec.place s.cfg v = .ok (d, o)) :
    feedBytes [s.cfg.esc, x] s = .next (s.received d [.idle, o]) := by
  have hesc := feedBytes_singleton_received (Decoder.feed_escPrefix hc hp he)
  have hsecond : s.dec.setEsc.feed s.cfg x = .ok (d, o) := by
    rw [Decoder.feed_of_resolves (d := s.dec.setEsc) hp (Resolves.of_unescapeByte hx hv), Decoder.clearEsc_setEsc he, h]
  exact feedBytes_append_received (ys := [x]) hesc (feedBytes_singleton_received hsecond)

/-- The wire bytes of a logical byte place it at the last of them, and signal nothing before. -/
theorem feedBytes_escapeByte {s : State} {v : Byte} {d : Decoder} {o : Outputs} (hw : s.cfg.wf)
    (hp : s.dec.phase ≠ .awaitHeader) (he : s.dec.esc = false) (h : s.dec.place s.cfg v = .ok (d, o)) :
    feedBytes (escapeByte s.cfg v) s =
      .next (s.received d (List.replicate ((escapeByte s.cfg v).length - 1) .idle ++ [o])) := by
  obtain ⟨hhe, hsh, hse, _⟩ := hw
  by_cases hv : v = s.cfg.header
  · subst hv
    rw [escapeByte_header]
    exact feedBytes_pair hhe hp he hsh (unescapeByte_sub s.cfg) h
  · by_cases hv' : v = s.cfg.esc
    · subst hv'
      rw [escapeByte_esc hv]
      exact feedBytes_pair hhe hp he hv (unescapeByte_esc hse.symm) h
    · rw [escapeByte_of_ne hv hv']
      refine feedBytes_singleton_received ?_
      rw [Decoder.feed_of_resolves hp (he ▸ Resolves.literal hv hv'), Decoder.clearEsc_of_esc he, h]

theorem escapeByte_length_pos (cfg : Config) (v : Byte) : 0 < (escapeByte cfg v).length := by
  simp only [escapeByte]
  split
  · exact Nat.zero_lt_two
  · split
    · exact Nat.zero_lt_two
    · exact Nat.one_pos

/-- The wire bytes of a logical byte whose placing signals nothing signal nothing at all. -/
theorem feedBytes_escapeByte_idle {s : State} {v : Byte} {d : Decoder} (hw : s.cfg.wf) (hp : s.dec.phase ≠ .awaitHeader)
    (he : s.dec.esc = false) (h : s.dec.place s.cfg v = .ok (d, .idle)) :
    feedBytes (escapeByte s.cfg v) s = .next (s.received d (List.replicate (escapeByte s.cfg v).length .idle)) := by
  rw [feedBytes_escapeByte hw hp he h, ← List.replicate_succ', Nat.sub_add_cancel (escapeByte_length_pos s.cfg v)]

theorem escapeAll_append (cfg : Config) (xs ys : List Byte) :
    escapeAll cfg (xs ++ ys) = escapeAll cfg xs ++ escapeAll cfg ys := by
  induction xs with
  | nil => rfl
  | cons x xs ih => rw [List.cons_append, escapeAll, escapeAll, ih, List.append_assoc]

theorem escapeAll_singleton (cfg : Config) (v : Byte) : escapeAll cfg [v] = escapeByte cfg v := List.append_nil _

/-! ### The body of a frame -/

/-- The stores of a run of body bytes from an index on (rule R109). -/
def bufWriteAll (m : Memory) (i : Nat) : List Byte → Memory
  | [] => m
  | v :: vs => bufWriteAll (bufWrite m i v) (i + 1) vs

theorem bufLookup_bufWriteAll_of_lt {m : Memory} {i j : Nat} (vs : List Byte) (h : j < i) :
    bufLookup (bufWriteAll m i vs) j = bufLookup m j := by
  induction vs generalizing m i with
  | nil => rfl
  | cons v vs ih => rw [bufWriteAll, ih (Nat.lt_succ_of_lt h), bufLookup_bufWrite_other m v (Nat.ne_of_lt h)]

theorem bufLookup_bufWriteAll {m : Memory} {i k : Nat} {vs : List Byte} (h : k < vs.length) :
    bufLookup (bufWriteAll m i vs) (i + k) = vs[k]? := by
  induction vs generalizing m i k with
  | nil => cases h
  | cons v vs ih =>
    cases k with
    | zero => simp [bufWriteAll, bufLookup_bufWriteAll_of_lt vs (Nat.lt_succ_self i)]
    | succ k =>
      rw [show i + (k + 1) = i + 1 + k by omega, List.getElem?_cons_succ]
      exact ih (Nat.lt_of_succ_lt_succ h)

/-- The slice of a buffer that a whole body has just been stored in is that body. -/
theorem bufSlice_bufWriteAll {cap : Nat} (m : Memory) {vs : List Byte} (h : vs.length ≤ cap) :
    bufSlice cap (bufWriteAll m 0 vs) 0 vs.length = .ok vs :=
  bufSlice_of_lookup (by omega) fun _ hk => bufLookup_bufWriteAll hk

/-- The decoder after a run of body bytes. -/
def Decoder.storeAll (d : Decoder) (vs : List Byte) : Decoder :=
  { d with csum := d.csum + sumBytes vs, idx := d.idx + vs.length, buf := bufWriteAll d.buf d.idx vs }

/-- Body bytes with room for them are stored in order and signal nothing, however they are escaped. -/
theorem feedBytes_body {s : State} {vs : List Byte} (hw : s.cfg.wf) (hp : s.dec.phase = .body) (he : s.dec.esc = false)
    (hl : s.dec.idx + vs.length ≤ s.dec.len.toNat) (hc : s.dec.idx + vs.length ≤ s.cfg.bufCap) :
    feedBytes (escapeAll s.cfg vs) s =
      .next (s.received (s.dec.storeAll vs) (List.replicate (escapeAll s.cfg vs).length .idle)) := by
  induction vs generalizing s with
  | nil => simp [escapeAll, feedBytes, Decoder.storeAll, bufWriteAll, State.received]
  | cons v vs ih =>
    rw [List.length_cons] at hl hc
    have hfirst := feedBytes_escapeByte_idle hw (hp.trans_ne (by decide)) he
      (Decoder.place_body v hp (by omega) (by omega))
    have hl' : s.dec.idx + 1 + vs.length ≤ s.dec.len.toNat := by omega
    have hc' : s.dec.idx + 1 + vs.length ≤ s.cfg.bufCap := by omega
    have hrest := feedBytes_append_received hfirst (ih (s := s.received _ _) hw hp he hl' hc')
    have hstore : ({ s.dec with
        buf := bufWrite s.dec.buf s.dec.idx v, idx := s.dec.idx + 1, csum := s.dec.csum + v } : Decoder).storeAll vs =
        s.dec.storeAll (v :: vs) := by
      simp [Decoder.storeAll, bufWriteAll, BitVec.add_assoc, Nat.add_assoc, Nat.add_comm 1]
    rw [State.received_dec, hstore, State.received_cfg, ← List.replicate_add, ← List.length_append] at hrest
    exact hrest

/-- The decoder after the header, the declared length `len` and the body bytes `bytes` of a frame: of the decoder `d` that the frame
has found, only the entries of `BUF` remain that the body has not overwritten. -/
def Decoder.inBody (cfg : Config) (d : Decoder) (len : Byte) (bytes : List Byte) : Decoder :=
  ⟨.body, false, sumBytes (cfg.header :: len :: bytes), len, bytes.length, bufWriteAll d.buf 0 bytes⟩

theorem Decoder.storeAll_inBody_nil (cfg : Config) (d : Decoder) (len : Byte) (bytes : List Byte) :
    (d.inBody cfg len []).storeAll bytes = d.inBody cfg len bytes := by
  simp [Decoder.storeAll, Decoder.inBody, bufWriteAll, BitVec.add_assoc]

theorem Decoder.place_frameStart (cfg : Config) (d : Decoder) (len : Byte) :
    (d.frameStart cfg).1.place cfg len = .ok (d.inBody cfg len [], .idle) := by
  rw [Decoder.place_length len rfl]
  simp [Decoder.inBody, bufWriteAll]

/-- From every state, a frame that fits the buffer gets to its checksum byte and signals nothing after its header. -/
theorem feedBytes_toChecksum {s : State} {len : Byte} {bytes : List Byte} (hw : s.cfg.wf) (hl : bytes.length ≤ len.toNat)
    (hc : bytes.length ≤ s.cfg.bufCap) :
    feedBytes (s.cfg.header :: escapeAll s.cfg (len :: bytes)) s =
      .next (s.received (s.dec.inBody s.cfg len bytes)
        (.signal (if s.dec.phase = .awaitHeader then .none else .resync) ::
          List.replicate (escapeAll s.cfg (len :: bytes)).length .idle)) := by
  have hheader := feedBytes_singleton_received (Decoder.feed_header s.cfg s.dec)
  have hlen := feedBytes_append_received hheader
    (feedBytes_escapeByte_idle hw nofun rfl (Decoder.place_frameStart s.cfg s.dec len))
  have hbody := feedBytes_append_received hlen (feedBytes_body (s := s.received _ _) (vs := bytes) hw rfl rfl
    (by simpa [Decoder.inBody] using hl) (by simpa [Decoder.inBody] using hc))
  simpa [escapeAll, Decoder.storeAll_inBody_nil, ← List.replicate_add, Decoder.frameStart] using hbody

/-- The matching checksum byte delivers what stands in the buffer, and signals nothing before that. -/
theorem feedBytes_checksum {s : State} {bytes : List Byte} (hw : s.cfg.wf) (hp : s.dec.phase = .body) (he : s.dec.esc = false)
    (hi : s.dec.idx = s.dec.len.toNat) (hs : bufSlice s.cfg.bufCap s.dec.buf 0 s.dec.len.toNat = .ok bytes) :
    feedBytes (escapeByte s.cfg s.dec.csum) s = .next (s.received { s.dec with phase := .awaitHeader }
      (List.replicate ((escapeByte s.cfg s.dec.csum).length - 1) .idle ++ [.deliver ⟨s.dec.len, bytes⟩])) :=
  feedBytes_escapeByte hw (hp.trans_ne (by decide)) he ((Decoder.place_checksum s.dec.csum hp hi).trans (Decoder.check_match hs))

/-- From every state, a frame that fits the buffer is delivered at its last byte, and signals nothing after its header. -/
theorem feedBytes_frame {s : State} {len sum : Byte} {bytes : List Byte} (hw : s.cfg.wf) (hl : bytes.length = len.toNat)
    (hc : bytes.length ≤ s.cfg.bufCap) (hsum : sum = sumBytes (s.cfg.header :: len :: bytes)) :
    feedBytes (s.cfg.header :: escapeAll s.cfg (len :: bytes ++ [sum])) s =
      .next (s.received { s.dec.inBody s.cfg len bytes with phase := .awaitHeader }
        (.signal (if s.dec.phase = .awaitHeader then .none else .resync) ::
          List.replicate ((escapeAll s.cfg (len :: bytes ++ [sum])).length - 1) .idle ++ [.deliver ⟨len, bytes⟩])) := by
  subst hsum
  have hslice : bufSlice s.cfg.bufCap (bufWriteAll s.dec.buf 0 bytes) 0 len.toNat = .ok bytes :=
    hl ▸ bufSlice_bufWriteAll s.dec.buf hc
  have hframe := feedBytes_append_received (feedBytes_toChecksum hw hl.le hc)
    (feedBytes_checksum (s := s.received (s.dec.inBody s.cfg len bytes) _) hw rfl rfl hl hslice)
  rw [escapeAll_append, escapeAll_singleton, List.length_append, Nat.add_sub_assoc (escapeByte_length_pos _ _),
    List.replicate_add, ← List.cons_append, ← List.cons_append, List.append_assoc]
  exact hframe

/-! ### The statements -/

/-- Settles O19: a byte that is not placed delivers nothing, and a placed one delivers exactly at the matching checksum. -/
theorem oneFeedDeliversAtMostOneFrame : Obligations.OneFeedDeliversAtMostOneFrame := by
  intro s t b hd h
  obtain ⟨d, o, hf, rfl⟩ := State.feedByte_next h
  refine ⟨o, rfl, ?_, ⟨fun hframe => ?_, fun ⟨hp, hi, hr⟩ => ?_⟩, fun hev => ?_⟩
  · rcases Decoder.feed_unplaced_or_placed hd hf with ⟨hno, hev, _⟩ | ⟨v, _, hpl⟩
    · simp [hno, hev]
    · exact hpl.frame_iff_event
  · rcases Decoder.feed_unplaced_or_placed hd hf with ⟨hno, _⟩ | ⟨v, hr, hpl⟩
    · exact absurd hno hframe
    · obtain ⟨hp, hi, rfl⟩ := hpl.delivers_iff.mp hframe
      exact ⟨hp, hi, hr⟩
  · exact (Placed.of_feed hd (hp.trans_ne (by decide)) hr hf).delivers_iff.mpr ⟨hp, hi, rfl⟩
  · rcases Decoder.feed_unplaced_or_placed hd hf with ⟨_, _, hnone | hresync | hp⟩ | ⟨v, _, hpl⟩
    · simp [hnone] at hev
    · simp [hresync] at hev
    · exact hp
    · exact hpl.phase_of_event fun hnone => by simp [hnone] at hev

/-- Settles O12: a byte other than `HEADER` and `ESC` resolves to itself. -/
theorem literalByteIsPlaced : Obligations.LiteralByteIsPlaced := by
  intro s b hd hp he hh hx
  obtain ⟨d, o, hf⟩ := Decoder.feed_total b hd
  exact ⟨d, o, Placed.of_feed hd hp (he ▸ Resolves.literal hh hx) hf, exec_feed_of_feed hf, exec_of_feed rfl nofun rfl hf⟩

/-- Settles O13: the byte is placed as the length. -/
theorem lengthByteIsTaken : Obligations.LengthByteIsTaken := by
  intro s b v hp hr
  have hfeed := Decoder.feed_of_resolves (hp.trans_ne (by decide)) hr
  exact exec_feed_of_feed (hfeed.trans (Decoder.place_length v hp))

/-- Settles O14: the buffer after the store is that of `bufWrite`, whose reads the memory's laws give. -/
theorem bodyByteIsStored : Obligations.BodyByteIsStored := by
  intro s b v hp hi hc hr
  have hfeed := Decoder.feed_of_resolves (hp.trans_ne (by decide)) hr
  exact ⟨bufWrite s.dec.buf s.dec.idx v, exec_feed_of_feed (hfeed.trans (Decoder.place_body v hp hi hc)),
    bufRead_bufWrite_same s.dec.buf v hc, fun _ => bufRead_bufWrite_other s.cfg.bufCap s.dec.buf v⟩

/-- Settles O16: the byte is placed as the checksum. -/
theorem checksumMismatchDiscards : Obligations.ChecksumMismatchDiscards := by
  intro s b v hp hi hr hv
  have hfeed := Decoder.feed_of_resolves (hp.trans_ne (by decide)) hr
  have hcheck := Decoder.place_checksum (cfg := s.cfg) (d := s.dec.clearEsc) v hp hi
  exact exec_feed_of_feed (hfeed.trans (hcheck.trans (Decoder.check_mismatch hv)))

/-- Settles O17: an overflow needs an index from `BUF_CAP` on and below the declared length, which is at most 255. -/
theorem bufferOverflowDiscards : Obligations.BufferOverflowDiscards := by
  refine ⟨fun s b v hp hi hc hr => ?_, fun s t b o hcap h ho hev => ?_⟩
  · have hfeed := Decoder.feed_of_resolves (hp.trans_ne (by decide)) hr
    exact exec_feed_of_feed (hfeed.trans (Decoder.place_overflow v hp hi hc))
  · obtain ⟨d, hf, -⟩ := exec_feed_next h ho
    obtain ⟨hc, hi⟩ := Decoder.feed_bufferOverflow hf hev
    have := s.dec.len.isLt
    omega

/-- Settles O23: a frame that fits the buffer is delivered, and one body byte fits every buffer that rule R8 allows. -/
theorem shortFramesAreDelivered : Obligations.ShortFramesAreDelivered := by
  intro s x hw
  have ⟨_, _, _, _, _, hcap, _⟩ := hw
  have hone : [x].length ≤ s.cfg.bufCap := by rw [List.length_singleton]; omega
  have hempty := feedBytes_frame (s := s) (len := 0#8) (bytes := []) hw rfl (Nat.zero_le _) (sum := s.cfg.header) (by simp)
  have hbyte := feedBytes_frame (s := s) (len := 1#8) (bytes := [x]) hw rfl hone (sum := s.cfg.header + 1#8 + x)
    (by simp [BitVec.add_assoc])
  exact ⟨⟨_, (execAll_feeds _ s).trans hempty, by simp, rfl⟩, ⟨_, (execAll_feeds _ s).trans hbyte, by simp, rfl⟩,
    rfl, rfl, rfl, rfl⟩

/-- Settles O4: with no frame in progress the decoder reads neither `S.esc` nor the escape table. -/
theorem unsyncedByteIsDiscarded : Obligations.UnsyncedByteIsDiscarded := by
  intro s b hp hb
  have hf := Decoder.feed_unsynced hp hb
  exact ⟨exec_feed_of_feed hf, exec_of_feed rfl nofun rfl hf⟩

/-- Settles O5: `HEADER` comes first in the order of rule R68, before the phase and `S.esc` are read. -/
theorem headerStartsFrame : Obligations.HeaderStartsFrame := by
  rintro s t rfl
  have hf := Decoder.feed_header s.cfg s.dec
  exact ⟨exec_feed_of_feed hf, exec_of_feed rfl nofun rfl hf⟩

/-- Settles O6: `ESC` is not `HEADER` in a well-formed configuration, so rule R68 gets to its step for `ESC`. -/
theorem escapePrefixSetsFlagOnly : Obligations.EscapePrefixSetsFlagOnly := by
  rintro s t ⟨hhe, _⟩ hp he rfl
  have hf := Decoder.feed_escPrefix hhe hp he
  exact ⟨exec_feed_of_feed hf, exec_of_feed rfl nofun rfl hf⟩

end Sys2Proof.Machine

/-! ## The outbound serializer (42_outbound_serializer.md)

Whatever an instruction appends to `OUT` is whole units, so the host's reading of `OUT` splits wherever an operation ends: every
statement about a run is one about a single instruction, carried along the run once. -/

namespace Sys2Proof.Machine

/-! ### Units and the host's demultiplexer -/

@[simp] theorem length_tagged (tag : Byte) (ws : List Byte) : (tagged tag ws).length = 2 * ws.length := by
  induction ws with
  | nil => rfl
  | cons w ws ih => simp only [tagged, List.length_cons, ih]; omega

@[simp] theorem demux_tagged_same (tag : Byte) (ws : List Byte) : demux tag (tagged tag ws) = ws := by
  induction ws with
  | nil => rfl
  | cons w ws ih => rw [tagged, demux, if_pos rfl, ih]

theorem demux_tagged_of_ne {tag tag' : Byte} (h : tag' ≠ tag) (ws : List Byte) : demux tag (tagged tag' ws) = [] := by
  induction ws with
  | nil => rfl
  | cons w ws ih => rw [tagged, demux, if_neg h, ih]

theorem unitAligned_tagged {cfg : Config} {tag : Byte} (h : tag = cfg.tagCtrl ∨ tag = cfg.tagPt) (ws : List Byte) :
    unitAligned cfg (tagged tag ws) := by
  induction ws with
  | nil => trivial
  | cons w ws ih => exact ⟨h, ih⟩

theorem unitAligned_append {cfg : Config} {xs ys : List Byte} (hx : unitAligned cfg xs) (hy : unitAligned cfg ys) :
    unitAligned cfg (xs ++ ys) := by
  induction xs using unitAligned.induct with
  | case1 => exact hy
  | case2 => exact hx.elim
  | case3 t w rest ih =>
    obtain ⟨htag, hrest⟩ := hx
    exact ⟨htag, ih hrest⟩

/-- After whole units the host reads on at a tag. -/
theorem demux_append {cfg : Config} {xs : List Byte} (tag : Byte) (hx : unitAligned cfg xs) (ys : List Byte) :
    demux tag (xs ++ ys) = demux tag xs ++ demux tag ys := by
  induction xs using unitAligned.induct with
  | case1 => rfl
  | case2 => exact hx.elim
  | case3 t w rest ih =>
    obtain ⟨-, hrest⟩ := hx
    by_cases ht : t = tag
    · simp only [List.cons_append, demux, if_pos ht, ih hrest]
    · simp only [List.cons_append, demux, if_neg ht, ih hrest]

/-! ### The wire bytes of a frame -/

theorem escapeAll_eq_flatMap (cfg : Config) (vs : List Byte) : escapeAll cfg vs = vs.flatMap (escapeByte cfg) := by
  induction vs with
  | nil => rfl
  | cons v vs ih => rw [escapeAll, ih, List.flatMap_cons]

theorem length_escapeByte (cfg : Config) (v : Byte) :
    (escapeByte cfg v).length = if v = cfg.header ∨ v = cfg.esc then 2 else 1 := by
  by_cases hv : v = cfg.header
  · rw [if_pos (.inl hv), hv, escapeByte_header, List.length_cons, List.length_singleton]
  · by_cases hv' : v = cfg.esc
    · rw [if_pos (.inr hv'), escapeByte, if_neg hv, if_pos hv', List.length_cons, List.length_singleton]
    · rw [if_neg (not_or.mpr ⟨hv, hv'⟩), escapeByte_of_ne hv hv', List.length_singleton]

/-- Escaping adds one wire byte for every `HEADER` and every `ESC`. -/
theorem length_escapeAll (cfg : Config) (vs : List Byte) :
    (escapeAll cfg vs).length = vs.length + vs.countP (fun v => v = cfg.header ∨ v = cfg.esc) := by
  induction vs with
  | nil => rfl
  | cons v vs ih =>
    rw [escapeAll, List.length_append, ih, length_escapeByte, List.countP_cons, List.length_cons]
    by_cases hv : v = cfg.header ∨ v = cfg.esc
    · simp only [hv, decide_true, if_true]; omega
    · simp only [hv, decide_false, if_false, Bool.false_eq_true]; omega

theorem count_header_frameBytes {cfg : Config} (hhe : cfg.header ≠ cfg.esc) (hsh : cfg.sub ≠ cfg.header) (c d : Byte)
    (p : List Byte) : (frameBytes cfg c d p).count cfg.header = 1 := by
  rw [frameBytes, List.count_cons_self, List.count_eq_zero.mpr (header_notMem_escapeAll hhe hsh _)]

/-- A frame is its header and its escaped fields: length, command, dataType and checksum beside the payload. -/
theorem length_frameBytes (cfg : Config) (c d : Byte) (p : List Byte) :
    (frameBytes cfg c d p).length = p.length + 5 +
      ([declaredLength p.length, c, d] ++ p ++ [frameChecksum cfg c d p]).countP (fun v => v = cfg.header ∨ v = cfg.esc) := by
  rw [frameBytes, List.length_cons, length_escapeAll]
  simp only [List.length_append, List.length_cons, List.length_nil]
  omega

/-- The declared length does not wrap under rule R8 (d). -/
theorem declaredLength_toNat {cfg : Config} {n : Nat} (hw : cfg.wf) (hn : n ≤ cfg.maxPayload) :
    (declaredLength n).toNat = n + 2 := by
  obtain ⟨_, _, _, _, hmax, _⟩ := hw
  exact (BitVec.toNat_ofNat ..).trans (Nat.mod_eq_of_lt (by omega))

/-! ### What one instruction appends to `OUT` -/

theorem emittedBy_encode {cfg : Config} {p : List Byte} (c d : Byte) (h : p.length ≤ cfg.maxPayload) :
    emittedBy cfg (.encode c d p) = tagged cfg.tagCtrl (frameBytes cfg c d p) := if_pos h

theorem emittedBy_inbound {i : Instr} (cfg : Config) (hi : isOutbound i = false) : emittedBy cfg i = [] := by
  cases i with
  | encode | passthru | outUnitCtrl | outUnitPt => cases hi
  | feed | reset | outUnitReserved => rfl
  | inHeader | inEscPrefix | inEscSub | inEscEsc | inEscHeader | inEscBad | inLiteral | inUnsynced => rfl

/-- What an instruction does to the parameters and to `OUT` (rule R138). -/
theorem exec_next_out {i : Instr} {s t : State} (h : exec i s = .next t) :
    t.cfg = s.cfg ∧ t.out = s.out ++ emittedBy s.cfg i := by
  cases hi : isOutbound i
  · obtain ⟨d, rs, -, hrun⟩ := exec_inbound hi h
    cases h.symm.trans (hrun s rfl rfl)
    simp [emittedBy_inbound s.cfg hi]
  · cases h.symm.trans (exec_outbound hi h s)
    exact ⟨rfl, rfl⟩

/-- An operation emits control units for the frame it encodes and passthrough units for the byte it forwards. -/
theorem emittedBy_operation {i : Instr} (cfg : Config) (hi : isOperation i = true) :
    emittedBy cfg i = tagged cfg.tagCtrl (encodedBy cfg i) ++ tagged cfg.tagPt (forwardedBy i) := by
  cases i with
  | feed | reset | passthru => rfl
  | encode c d p => by_cases hp : p.length ≤ cfg.maxPayload <;> simp [emittedBy, encodedBy, forwardedBy, hp, tagged]
  | inHeader | inEscPrefix | inEscSub | inEscEsc | inEscHeader | inEscBad | inLiteral | inUnsynced => cases hi
  | outUnitCtrl | outUnitPt | outUnitReserved => cases hi

theorem unitAligned_emittedBy {i : Instr} (cfg : Config) (hi : isOperation i = true) : unitAligned cfg (emittedBy cfg i) := by
  rw [emittedBy_operation cfg hi]
  exact unitAligned_append (unitAligned_tagged (.inl rfl) _) (unitAligned_tagged (.inr rfl) _)

theorem demux_tagCtrl_emittedBy {i : Instr} {cfg : Config} (ht : cfg.tagCtrl ≠ cfg.tagPt) (hi : isOperation i = true) :
    demux cfg.tagCtrl (emittedBy cfg i) = encodedBy cfg i := by
  rw [emittedBy_operation cfg hi, demux_append _ (unitAligned_tagged (.inl rfl) _), demux_tagged_same,
    demux_tagged_of_ne ht.symm, List.append_nil]

theorem demux_tagPt_emittedBy {i : Instr} {cfg : Config} (ht : cfg.tagCtrl ≠ cfg.tagPt) (hi : isOperation i = true) :
    demux cfg.tagPt (emittedBy cfg i) = forwardedBy i := by
  rw [emittedBy_operation cfg hi, demux_append _ (unitAligned_tagged (.inl rfl) _), demux_tagged_same,
    demux_tagged_of_ne ht, List.nil_append]

/-- Only a successful ENCODE puts a `HEADER` into the control channel, and it puts one. -/
theorem count_header_encodedBy {cfg : Config} (hhe : cfg.header ≠ cfg.esc) (hsh : cfg.sub ≠ cfg.header) (i : Instr) :
    (encodedBy cfg i).count cfg.header = if encodes cfg i then 1 else 0 := by
  cases i with
  | encode c d p =>
    by_cases hp : p.length ≤ cfg.maxPayload
    · simp [encodedBy, encodes, hp, count_header_frameBytes hhe hsh]
    · simp [encodedBy, encodes, hp]
  | feed | reset | passthru | outUnitCtrl | outUnitPt | outUnitReserved => rfl
  | inHeader | inEscPrefix | inEscSub | inEscEsc | inEscHeader | inEscBad | inLiteral | inUnsynced => rfl

/-! ### What a run appends to `OUT` -/

theorem execAll_next_out {ops : List Instr} {s t : State} (h : execAll ops s = .next t) :
    t.out = s.out ++ ops.flatMap (emittedBy s.cfg) := by
  induction ops generalizing s with
  | nil =>
    cases h
    exact (List.append_nil _).symm
  | cons i ops ih =>
    simp only [execAll] at h
    split at h
    case h_1 u hu =>
      obtain ⟨hcfg, hout⟩ := exec_next_out hu
      rw [ih h, hcfg, hout, List.flatMap_cons, List.append_assoc]
    all_goals cases h

theorem unitAligned_flatMap_emittedBy {cfg : Config} {ops : List Instr} (hops : ops.all isOperation = true) :
    unitAligned cfg (ops.flatMap (emittedBy cfg)) := by
  induction ops with
  | nil => trivial
  | cons i ops ih =>
    rw [List.all_cons, Bool.and_eq_true] at hops
    obtain ⟨hi, hrest⟩ := hops
    exact unitAligned_append (unitAligned_emittedBy cfg hi) (ih hrest)

/-- The host reads from a run what it reads from each operation, in order. -/
theorem demux_flatMap_emittedBy {cfg : Config} {tag : Byte} {channel : Instr → List Byte}
    (hone : ∀ {i}, isOperation i = true → demux tag (emittedBy cfg i) = channel i) {ops : List Instr}
    (hops : ops.all isOperation = true) : demux tag (ops.flatMap (emittedBy cfg)) = ops.flatMap channel := by
  induction ops with
  | nil => rfl
  | cons i ops ih =>
    rw [List.all_cons, Bool.and_eq_true] at hops
    obtain ⟨hi, hrest⟩ := hops
    rw [List.flatMap_cons, demux_append _ (unitAligned_emittedBy cfg hi), hone hi, ih hrest, List.flatMap_cons]

theorem count_header_flatMap_encodedBy {cfg : Config} (hhe : cfg.header ≠ cfg.esc) (hsh : cfg.sub ≠ cfg.header)
    (ops : List Instr) : (ops.flatMap (encodedBy cfg)).count cfg.header = (ops.filter (encodes cfg)).length := by
  induction ops with
  | nil => rfl
  | cons i ops ih =>
    rw [List.flatMap_cons, List.count_append, ih, count_header_encodedBy hhe hsh, List.filter_cons]
    split
    · exact Nat.add_comm ..
    · exact Nat.zero_add _

/-! ### The statements -/

/-- Settles O27: the control units carry the frame's bytes, and a frame that fits the buffer is delivered from every state. -/
theorem roundTrip : Obligations.RoundTrip := by
  intro s u c d p hw hcfg hp
  have hlen := declaredLength_toNat hw hp
  have hfits : (c :: d :: p).length ≤ u.cfg.bufCap := by
    obtain ⟨_, _, _, _, _, hcap, _⟩ := hw
    rw [hcfg, List.length_cons, List.length_cons]
    omega
  have hsent : (s.sent (emittedBy s.cfg (.encode c d p)) (answersOf s.cfg (.encode c d p))).out =
      s.out ++ tagged s.cfg.tagCtrl (frameBytes u.cfg c d p) := by
    rw [State.sent_out, emittedBy_encode c d hp, hcfg]
  have hframe := feedBytes_frame (s := u) (len := declaredLength p.length) (bytes := c :: d :: p) (hcfg ▸ hw) hlen.symm hfits
    (sum := frameChecksum u.cfg c d p) rfl
  exact ⟨_, frameBytes u.cfg c d p, exec_encode c d p s, hsent, _, _, _, (execAll_feeds _ u).trans hframe,
    (List.append_assoc ..).symm, by simp, rfl, rfl, hlen⟩

/-- Settles O39: `OUT` grows by whole units, so the host reads the run's part of it by itself, operation by operation. -/
theorem hostDemultiplexesBothChannels : Obligations.HostDemultiplexesBothChannels := by
  intro ops s t hw hops hs h
  obtain ⟨_, _, _, ht, _⟩ := hw
  rw [execAll_next_out h]
  refine ⟨unitAligned_append hs (unitAligned_flatMap_emittedBy hops), ?_, ?_⟩
  · rw [demux_append _ hs, demux_flatMap_emittedBy (demux_tagCtrl_emittedBy ht) hops]
  · rw [demux_append _ hs, demux_flatMap_emittedBy (demux_tagPt_emittedBy ht) hops]

/-- Settles O32: what a successful ENCODE emits, with the escapes of the fields written one by one. -/
theorem encodeAppendsItsFrame : Obligations.EncodeAppendsItsFrame := by
  rintro s c d p n sum hp rfl rfl
  rw [exec_encode, emittedBy_encode c d hp, frameBytes, escapeAll_eq_flatMap]
  simp [State.sent, answersOf, hp, Outputs.respond, declaredLength, frameChecksum]

/-- Settles O38, by induction on the run: an instruction appends what it emits, and keeps the parameters. -/
theorem outIsInCallOrder : Obligations.OutIsInCallOrder := by
  refine ⟨fun ops s t => execAll_next_out, fun cfg c d p hp => ?_⟩
  rw [emittedBy_encode c d hp, length_tagged, frameBytes, List.length_cons, Nat.add_comm 1]

/-- Settles O40: the control channel is the frames, and no escaped field holds `HEADER`. -/
theorem headerMarksFrameStartsOnly : Obligations.HeaderMarksFrameStartsOnly := by
  refine ⟨fun ops s t hw hops hs h => ?_, fun cfg c d p ⟨hhe, hsh, _⟩ => ⟨_, rfl, header_notMem_escapeAll hhe hsh _⟩⟩
  obtain ⟨-, hctrl, -⟩ := hostDemultiplexesBothChannels ops s t hw hops (hs ▸ trivial) h
  obtain ⟨hhe, hsh, _⟩ := hw
  rw [hctrl, hs]
  exact count_header_flatMap_encodedBy hhe hsh ops

/-- Settles O45: of the `n + 4` fields, those that need escaping take one byte more. -/
theorem frameSizeBounds : Obligations.FrameSizeBounds := by
  rintro cfg c d p fields rfl
  have hlen := length_frameBytes cfg c d p
  generalize hfields : [declaredLength p.length, c, d] ++ p ++ [frameChecksum cfg c d p] = fields at hlen ⊢
  have hcount : fields.length = p.length + 4 := by simp [← hfields]
  have hle := fields.countP_le_length (p := fun v => v = cfg.header ∨ v = cfg.esc)
  refine ⟨by omega, by omega, fun hnone => ?_, fun hall => ?_, fun _ => by omega, fun hp => ?_⟩
  · rw [hlen, List.countP_eq_zero.mpr (by simpa using hnone), Nat.add_zero]
  · rw [hlen, List.countP_eq_length.mpr (by simpa using hall), hcount]
    omega
  · rw [emittedBy_encode c d hp, length_tagged]

/-- Settles O59: what an outbound instruction emits and answers is given by the parameters. -/
theorem outboundIgnoresDecoder : Obligations.OutboundIgnoresDecoder := by
  intro i s u t hi hcfg h
  cases h.symm.trans (exec_outbound hi h s)
  exact ⟨rfl, _, _, _, exec_outbound hi h u, rfl, rfl, by rw [State.sent_out, hcfg], rfl, by rw [State.sent_results, hcfg]⟩

/-- Settles O33: a refused ENCODE emits nothing. -/
theorem oversizedEncodeEmitsNothing : Obligations.OversizedEncodeEmitsNothing := by
  intro s c d p hp
  rw [exec_encode]
  simp [State.sent, emittedBy, answersOf, Outputs.respond, Nat.not_le.mpr hp]

/-- Settles O34: `n + 2` is at most `MAX_PAYLOAD + 2`, which rule R8 bounds by 255 and by `BUF_CAP`. -/
theorem lengthFieldIsExact : Obligations.LengthFieldIsExact := by
  intro cfg n hw hn
  have hlen := declaredLength_toNat hw hn
  obtain ⟨_, _, _, _, _, hcap, _⟩ := hw
  omega

/-- Settles O35: a PASSTHRU is not refused, so it appends what an outbound instruction emits. -/
theorem passthruAppendsOneUnit : Obligations.PassthruAppendsOneUnit :=
  fun s b => exec_outbound (i := .passthru b) (s := s) rfl rfl s

end Sys2Proof.Machine

/-! ## Decoder errors (60_exceptions.md)

A FEED that signals an event has one of four shapes: a delivery, a byte outside any frame, a header inside a frame, or one of the
three errors, each of which is `Decoder.error` of the state the FEED found. -/

namespace Sys2Proof.Machine

/-! ### The shapes of a FEED, by its event -/

/-- Entering an error clears `S.esc` itself, so an escape pair that is already taken apart makes no difference. -/
theorem Decoder.clearEsc_error (d : Decoder) (ev : DecEvent) : d.clearEsc.error ev = d.error ev := rfl

/-- A logical byte within a frame is taken, completes the frame, or is an error. -/
theorem Decoder.place_quiet_or_error {cfg : Config} {d d' : Decoder} {v : Byte} {o : Outputs} (hp : d.phase ≠ .awaitHeader)
    (h : d.place cfg v = .ok (d', o)) :
    (o.event = .none ∨ o.event = .frame) ∨
      ((o.event = .checksumMismatch ∨ o.event = .bufferOverflow) ∧ (d', o) = d.error o.event) := by
  rcases Decoder.place_cases h with
    ⟨hp', _⟩ | ⟨_, _, rfl⟩ | ⟨_, _, _, _, rfl⟩ | ⟨_, _, _, rfl, rfl⟩ | ⟨_, _, hcheck⟩
  · exact absurd hp' hp
  · exact .inl (.inl rfl)
  · exact .inl (.inl rfl)
  · exact .inr ⟨.inr rfl, rfl⟩
  · rcases Decoder.check_cases hcheck with ⟨_, _, _, _, rfl⟩ | ⟨_, rfl, rfl⟩
    · exact .inl (.inr rfl)
    · exact .inr ⟨.inl rfl, rfl⟩

/-- All that a FEED can signal, and what it makes of the decoder where that is no `NONE` and no `FRAME` (rules R163 and R166). -/
theorem Decoder.feed_event_cases {cfg : Config} {d d' : Decoder} {b : Byte} {o : Outputs} (h : d.feed cfg b = .ok (d', o)) :
    (o.event = .none ∨ o.event = .frame) ∨
    (d.phase = .awaitHeader ∧ d' = d ∧ o = .signal .unsyncedByte) ∨
    (d.phase ≠ .awaitHeader ∧ d' = (d.frameStart cfg).1 ∧ o = .signal .resync) ∨
    ((o.event = .checksumMismatch ∨ o.event = .badEscape ∨ o.event = .bufferOverflow) ∧ (d', o) = d.error o.event) := by
  rcases Decoder.feed_split cfg d b with
    ⟨_, hf⟩ | ⟨_, hp, hf⟩ | ⟨_, _, _, _, hf⟩ | ⟨_, _, _, hf⟩ | ⟨hp, v, _, hf⟩
  · cases hf.symm.trans h
    by_cases hp : d.phase = .awaitHeader
    · simp [hp]
    · exact .inr (.inr (.inl ⟨hp, rfl, by rw [if_neg hp]⟩))
  · cases hf.symm.trans h
    exact .inr (.inl ⟨hp, rfl, rfl⟩)
  · cases hf.symm.trans h
    exact .inl (.inl rfl)
  · cases hf.symm.trans h
    exact .inr (.inr (.inr ⟨.inr (.inl rfl), Decoder.clearEsc_error d .badEscape⟩))
  · rcases Decoder.place_quiet_or_error (d := d.clearEsc) hp (hf.symm.trans h) with hquiet | ⟨hev, herr⟩
    · exact .inl hquiet
    · exact .inr (.inr (.inr ⟨hev.imp_right .inr, herr.trans (Decoder.clearEsc_error d _)⟩))

/-! ### The statement -/

/-- Settles O21: each of the four shapes signals its own events, and only an error enters `Decoder.error`. -/
theorem decoderErrorIsPrecise : Obligations.DecoderErrorIsPrecise := by
  intro s t b o h ho
  obtain ⟨d, hf, rfl⟩ := exec_feed_next h ho
  rcases Decoder.feed_event_cases hf with (hev | hev) | ⟨hp, rfl, rfl⟩ | ⟨hp, rfl, rfl⟩ | ⟨hev, herr⟩
  · simp [hev]
  · simp [hev]
  · exact ⟨by simp, fun _ => ⟨hp, rfl, rfl⟩, by simp, rfl⟩
  · exact ⟨by simp, by simp, fun _ => ⟨hp, rfl⟩, rfl⟩
  · obtain ⟨hd, hout⟩ := Prod.mk.inj herr
    have hframe : o.frame = none := congrArg Outputs.frame hout
    refine ⟨fun _ => ⟨by rw [hd]; rfl, hframe⟩, fun hun => ?_, fun hre => ?_, rfl⟩
    · simp [hun] at hev
    · simp [hre] at hev

end Sys2Proof.Machine

/-! ## Reset (70_reset_and_hazards.md)

RESET leaves the decoder in `AwaitHeader`, and there the next frame overwrites every field of `S` and every entry of `BUF` before it
reads it. So two decoders that agree on the frame in progress, where there is one, answer every FEED alike; whatever else they hold
is never seen. -/

namespace Sys2Proof.Machine

/-! ### RESET -/

theorem exec_reset (s : State) : exec .reset s = .next (s.received { Decoder.reset with buf := s.dec.buf } [.idle]) := rfl

/-! ### Decoders that agree on the frame in progress -/

theorem bufSlice_congr {cap : Nat} {m m' : Memory} {i n : Nat}
    (h : ∀ j, i ≤ j → j < i + n → bufLookup m' j = bufLookup m j) : bufSlice cap m' i n = bufSlice cap m i n := by
  induction n generalizing i with
  | zero => rfl
  | succ n ih =>
    have hrest := ih (i := i + 1) fun j hj hn => h j (by omega) (by omega)
    simp only [bufSlice, bufRead, h i (Nat.le_refl i) (by omega), hrest]

/-- `d` and `e` agree on what the frame in progress can still read: its escape flag and checksum, and in `Body` also the declared
length and the body bytes stored. In `AwaitHeader` that is nothing (10_state.md rule R33). -/
structure Decoder.Alike (cfg : Config) (d e : Decoder) : Prop where
  phase : e.phase = d.phase
  esc : d.phase ≠ .awaitHeader → e.esc = d.esc
  csum : d.phase ≠ .awaitHeader → e.csum = d.csum
  len : d.phase = .body → e.len = d.len
  idx : d.phase = .body → e.idx = d.idx
  index : IndexInv cfg d
  stored : d.phase = .body → ∀ i, i < d.idx → bufLookup e.buf i = bufLookup d.buf i

theorem Decoder.Alike.of_awaitHeader {cfg : Config} {d e : Decoder} (hd : d.phase = .awaitHeader)
    (he : e.phase = .awaitHeader) : d.Alike cfg e := by
  constructor <;> simp [hd, he, IndexInv]

theorem Decoder.Alike.frameStart (cfg : Config) (d e : Decoder) : (d.frameStart cfg).1.Alike cfg (e.frameStart cfg).1 := by
  constructor <;> simp [IndexInv]

theorem Decoder.Alike.setEsc {cfg : Config} {d e : Decoder} (h : d.Alike cfg e) : d.setEsc.Alike cfg e.setEsc :=
  ⟨h.phase, fun _ => rfl, h.csum, h.len, h.idx, h.index, h.stored⟩

theorem Decoder.Alike.clearEsc {cfg : Config} {d e : Decoder} (h : d.Alike cfg e) : d.clearEsc.Alike cfg e.clearEsc :=
  ⟨h.phase, fun _ => rfl, h.csum, h.len, h.idx, h.index, h.stored⟩

/-- After the length byte the body is still empty, so the buffers need not agree on anything. -/
theorem Decoder.Alike.takeLength {cfg : Config} {d e : Decoder} (v : Byte) (h : d.Alike cfg e) (hp : d.phase = .awaitLength) :
    Decoder.Alike cfg { d with len := v, csum := d.csum + v, idx := 0, phase := .body }
      { e with len := v, csum := e.csum + v, idx := 0, phase := .body } := by
  have hframe : d.phase ≠ .awaitHeader := hp.trans_ne (by decide)
  constructor <;> simp [IndexInv, h.esc hframe, h.csum hframe]

/-- The byte just stored is the only entry that the frame can read now and could not read before. -/
theorem Decoder.Alike.store {cfg : Config} {d e : Decoder} (v : Byte) (h : d.Alike cfg e) (hp : d.phase = .body)
    (hi : d.idx < d.len.toNat) (hc : d.idx < cfg.bufCap) :
    Decoder.Alike cfg { d with buf := bufWrite d.buf d.idx v, idx := d.idx + 1, csum := d.csum + v }
      { e with buf := bufWrite e.buf e.idx v, idx := e.idx + 1, csum := e.csum + v } := by
  have hframe : d.phase ≠ .awaitHeader := hp.trans_ne (by decide)
  refine ⟨h.phase, h.esc, fun _ => ?_, h.len, fun _ => ?_, fun _ => ⟨hi, hc⟩, fun _ i hlt => ?_⟩
  · exact congrArg (· + v) (h.csum hframe)
  · exact congrArg (· + 1) (h.idx hp)
  · simp only [h.idx hp]
    by_cases hix : i = d.idx
    · simp [hix]
    · rw [bufLookup_bufWrite_other _ _ hix, bufLookup_bufWrite_other _ _ hix]
      exact h.stored hp i (by simp only at hlt; omega)

/-! ### What such decoders answer -/

/-- Both answer, with the same outputs, and the decoders agree again. -/
def AnswerAlike (cfg : Config) (x y : Decoded) : Prop := ∃ d e o, x = .ok (d, o) ∧ y = .ok (e, o) ∧ d.Alike cfg e

/-- A whole body agrees entry by entry, so both decoders deliver the same frame. -/
theorem Decoder.Alike.check {cfg : Config} {d e : Decoder} (v : Byte) (h : d.Alike cfg e) (hp : d.phase = .body)
    (hi : d.idx = d.len.toNat) : AnswerAlike cfg (d.check cfg v) (e.check cfg v) := by
  have hcsum := h.csum (hp.trans_ne (by decide))
  obtain ⟨-, hcap⟩ := h.index hp
  by_cases hv : v = d.csum
  · obtain ⟨bytes, hd⟩ := bufSlice_total (cap := cfg.bufCap) d.buf (i := 0) (n := d.len.toNat) (by omega)
    have he : bufSlice cfg.bufCap e.buf 0 e.len.toNat = .ok bytes := by
      rw [h.len hp, bufSlice_congr fun j _ hj => h.stored hp j (by omega), hd]
    subst hv
    have hde := Decoder.check_match he
    rw [hcsum, h.len hp] at hde
    exact ⟨_, _, _, Decoder.check_match hd, hde, .of_awaitHeader rfl rfl⟩
  · exact ⟨_, _, _, Decoder.check_mismatch hv, Decoder.check_mismatch (hcsum ▸ hv), .of_awaitHeader rfl rfl⟩

theorem Decoder.Alike.place {cfg : Config} {d e : Decoder} (v : Byte) (h : d.Alike cfg e) (hframe : d.phase ≠ .awaitHeader) :
    AnswerAlike cfg (d.place cfg v) (e.place cfg v) := by
  rcases hp : d.phase with _ | _ | _
  case awaitHeader => exact absurd hp hframe
  case awaitLength =>
    exact ⟨_, _, _, Decoder.place_length v hp, Decoder.place_length v (h.phase.trans hp), h.takeLength v hp⟩
  case body =>
    have hpe : e.phase = .body := h.phase.trans hp
    obtain ⟨hidx, -⟩ := h.index hp
    by_cases hi : d.idx < d.len.toNat
    · have hie : e.idx < e.len.toNat := by rwa [h.idx hp, h.len hp]
      by_cases hc : d.idx < cfg.bufCap
      · have hce : e.idx < cfg.bufCap := by rwa [h.idx hp]
        exact ⟨_, _, _, Decoder.place_body v hp hi hc, Decoder.place_body v hpe hie hce, h.store v hp hi hc⟩
      · have hce : ¬ e.idx < cfg.bufCap := by rwa [h.idx hp]
        exact ⟨_, _, _, Decoder.place_overflow v hp hi (Nat.le_of_not_lt hc),
          Decoder.place_overflow v hpe hie (Nat.le_of_not_lt hce), .of_awaitHeader rfl rfl⟩
    · have hlast : d.idx = d.len.toNat := by omega
      have hlaste : e.idx = e.len.toNat := by rw [h.idx hp, h.len hp, hlast]
      rw [Decoder.place_checksum v hp hlast, Decoder.place_checksum v hpe hlaste]
      exact h.check v hp hlast

theorem Decoder.Alike.feed {cfg : Config} {d e : Decoder} (b : Byte) (h : d.Alike cfg e) :
    AnswerAlike cfg (d.feed cfg b) (e.feed cfg b) := by
  rcases Decoder.feed_split cfg d b with
    ⟨rfl, hf⟩ | ⟨hb, hp, hf⟩ | ⟨hb, hp, he, rfl, hf⟩ | ⟨hp, hbad, hl, hf⟩ | ⟨hp, v, hr, hf⟩
  · refine ⟨_, _, _, hf, ?_, .frameStart cfg d e⟩
    rw [Decoder.feed_header, Decoder.frameStart, h.phase]
  · exact ⟨_, _, _, hf, Decoder.feed_unsynced (h.phase.trans hp) hb, h⟩
  · exact ⟨_, _, _, hf, Decoder.feed_escPrefix hb.symm (h.phase.trans_ne hp) ((h.esc hp).trans he), h.setEsc⟩
  · obtain ⟨he, hx⟩ := hbad
    have hbade : IsBadEscape cfg e b := ⟨(h.esc hp).trans he, hx⟩
    exact ⟨_, _, _, hf, Decoder.feed_of_badEscape (h.phase.trans_ne hp) hbade hl, .of_awaitHeader rfl rfl⟩
  · rw [hf, Decoder.feed_of_resolves (h.phase.trans_ne hp) (h.esc hp ▸ hr)]
    exact h.clearEsc.place v hp

/-! ### The simulation -/

/-- `s` has given the results and the bytes of `OUT` that `u` has given, after the earlier ones `rs` and `out`; and their decoders
agree on the frame in progress. -/
structure Mirrors (out : List Byte) (rs : List Outputs) (s u : State) : Prop where
  cfg : u.cfg = s.cfg
  dec : s.dec.Alike s.cfg u.dec
  out : s.out = out ++ u.out
  results : s.results = rs ++ u.results

theorem Mirrors.received {out : List Byte} {rs new : List Outputs} {s u : State} {d e : Decoder} (h : Mirrors out rs s u)
    (hd : d.Alike s.cfg e) : Mirrors out rs (s.received d new) (u.received e new) :=
  ⟨h.cfg, hd, h.out, by simp [h.results]⟩

theorem Mirrors.sent {out bytes : List Byte} {rs new : List Outputs} {s u : State} (h : Mirrors out rs s u) :
    Mirrors out rs (s.sent bytes new) (u.sent bytes new) :=
  ⟨h.cfg, h.dec, by simp [h.out], by simp [h.results]⟩

theorem Mirrors.outbound {out : List Byte} {rs : List Outputs} {i : Instr} {s u : State} (h : Mirrors out rs s u)
    (hrun : ∀ v : State, exec i v = .next (v.sent (emittedBy v.cfg i) (answersOf v.cfg i))) :
    ∃ t w, exec i s = .next t ∧ exec i u = .next w ∧ Mirrors out rs t w :=
  ⟨_, _, hrun s, hrun u, h.cfg ▸ h.sent⟩

/-- Every operation completes on both machines, and keeps the relation. -/
theorem Mirrors.exec_operation {out : List Byte} {rs : List Outputs} {i : Instr} {s u : State} (h : Mirrors out rs s u)
    (hi : isOperation i = true) : ∃ t w, exec i s = .next t ∧ exec i u = .next w ∧ Mirrors out rs t w := by
  cases i with
  | feed b =>
    obtain ⟨d, e, o, hd, he, hde⟩ := h.dec.feed b
    exact ⟨_, _, exec_feed_of_feed hd, exec_feed_of_feed (h.cfg ▸ he), h.received hde⟩
  | reset => exact ⟨_, _, exec_reset s, exec_reset u, h.received (.of_awaitHeader rfl rfl)⟩
  | encode c d p => exact h.outbound (exec_encode c d p)
  | passthru b => exact h.outbound (exec_outbound (s := s) rfl rfl)
  | inHeader | inEscPrefix | inEscSub | inEscEsc | inEscHeader | inEscBad | inLiteral | inUnsynced => cases hi
  | outUnitCtrl | outUnitPt | outUnitReserved => cases hi

theorem Mirrors.execAll_operations {out : List Byte} {rs : List Outputs} {ops : List Instr} {s u : State} (h : Mirrors out rs s u)
    (hops : ops.all isOperation = true) :
    ∃ t w, execAll ops s = .next t ∧ execAll ops u = .next w ∧ Mirrors out rs t w := by
  induction ops generalizing s u with
  | nil => exact ⟨s, u, rfl, rfl, h⟩
  | cons i ops ih =>
    rw [List.all_cons, Bool.and_eq_true] at hops
    obtain ⟨hi, hrest⟩ := hops
    obtain ⟨t, w, ht, hw, htw⟩ := h.exec_operation hi
    simpa only [execAll, ht, hw] using ih htw hrest

/-! ### The statements -/

/-- Settles O30: after RESET the machine mirrors a fresh one, since both decoders are in `AwaitHeader`, and a run keeps that. -/
theorem resetIsObservablyFresh : Obligations.ResetIsObservablyFresh := by
  intro s ops hops
  have hstart : Mirrors s.out (s.results ++ [.idle])
      (s.received { Decoder.reset with buf := s.dec.buf } [.idle]) (State.create s.cfg) :=
    ⟨rfl, .of_awaitHeader rfl rfl, (List.append_nil _).symm, (List.append_nil _).symm⟩
  obtain ⟨t, w, ht, hw, h⟩ := hstart.execAll_operations hops
  exact ⟨_, t, w, exec_reset s, rfl, ht, hw, h.results, h.out, h.dec.phase.symm⟩

/-- Settles O3: RESET replaces the decoder by its reset values around the same `BUF`, and its outputs are idle. -/
theorem resetOperationRestoresDecoder : Obligations.ResetOperationRestoresDecoder := exec_reset

end Sys2Proof.Machine

/-! ## The encodings (30_encoding.md)

The classification of rule R68 is one equation per kind of byte. Every inbound row is the run of wire bytes that `encode` gives for
it, and the classification takes exactly that run off the front of a burst; so decoding and encoding are inverse both ways. -/

namespace Sys2Proof.Machine

/-! ### Positions and escape pairs -/

theorem inFrame_iff {pos : Position} : pos.inFrame = true ↔ pos.phase ≠ .awaitHeader := bne_iff_ne

theorem pairBytes_pending {cfg : Config} {pos : Position} (x : Byte) (hp : pos.phase ≠ .awaitHeader) (he : pos.esc = true) :
    pairBytes cfg pos x = [x] := by simp [pairBytes, inFrame_iff.mpr hp, he]

theorem pairBytes_whole {cfg : Config} {pos : Position} (x : Byte) (he : pos.esc = false) :
    pairBytes cfg pos x = [cfg.esc, x] := by simp [pairBytes, he]

theorem pairToken_header (cfg : Config) : pairToken cfg cfg.header = .inEscHeader := if_pos rfl

theorem pairToken_sub {cfg : Config} (h : cfg.sub ≠ cfg.header) : pairToken cfg cfg.sub = .inEscSub := by
  rw [pairToken, if_neg h, if_pos rfl]

theorem pairToken_esc {cfg : Config} (hh : cfg.esc ≠ cfg.header) (hs : cfg.esc ≠ cfg.sub) :
    pairToken cfg cfg.esc = .inEscEsc := by rw [pairToken, if_neg hh, if_neg hs, if_pos rfl]

theorem pairToken_bad {cfg : Config} {x : Byte} (hh : x ≠ cfg.header) (hs : x ≠ cfg.sub) (he : x ≠ cfg.esc) :
    pairToken cfg x = .inEscBad x := by rw [pairToken, if_neg hh, if_neg hs, if_neg he]

/-- The row of a pair is encoded as that pair. -/
theorem encode_pairToken (cfg : Config) (pos : Position) (x : Byte) :
    encode cfg pos (pairToken cfg x) = .inbound (pairBytes cfg pos x) := by
  simp only [pairToken]
  split
  next h => rw [h, encode]
  next =>
    split
    next h => rw [h, encode]
    next =>
      split
      next h => rw [h, encode]
      next => rfl

/-- The row of a pair is well-formed within a frame; a `HEADER` after an escape already pending is IN.HEADER, and no pair. -/
theorem wellFormed_pairToken {cfg : Config} {pos : Position} {x : Byte} (hp : pos.phase ≠ .awaitHeader)
    (hx : pos.esc = true → x ≠ cfg.header) : wellFormed cfg pos (pairToken cfg x) = true := by
  have hf := inFrame_iff.mpr hp
  by_cases hh : x = cfg.header
  · have he : pos.esc = false := eq_false_of_ne_true fun he => hx he hh
    simp [pairToken, hh, wellFormed, hf, he]
  · by_cases hs : x = cfg.sub
    · simp [pairToken, hs, hs ▸ hh, wellFormed, hf]
    · by_cases he : x = cfg.esc
      · simp [pairToken, he, he ▸ hh, he ▸ hs, wellFormed, hf]
      · simp [pairToken_bad hh hs he, wellFormed, hf, hh, hs, he]

/-! ### The classification of rule R68, one equation per kind of byte -/

theorem decodeInbound_header (cfg : Config) (pos : Position) (bs : List Byte) :
    decodeInbound cfg pos (cfg.header :: bs) = .ok (.inHeader, bs) := if_pos rfl

theorem decodeInbound_unsynced {cfg : Config} {pos : Position} {b : Byte} (bs : List Byte) (hb : b ≠ cfg.header)
    (hp : pos.phase = .awaitHeader) : decodeInbound cfg pos (b :: bs) = .ok (.inUnsynced b, bs) :=
  (if_neg hb).trans (if_pos hp)

theorem decodeInbound_pending {cfg : Config} {pos : Position} {b : Byte} (bs : List Byte) (hb : b ≠ cfg.header)
    (hp : pos.phase ≠ .awaitHeader) (he : pos.esc = true) :
    decodeInbound cfg pos (b :: bs) = .ok (pairToken cfg b, bs) :=
  (if_neg hb).trans ((if_neg hp).trans (if_pos he))

theorem decodeInbound_escPrefix {cfg : Config} {pos : Position} (hh : cfg.esc ≠ cfg.header) (hp : pos.phase ≠ .awaitHeader)
    (he : pos.esc = false) : decodeInbound cfg pos [cfg.esc] = .ok (.inEscPrefix, []) := by
  simp [decodeInbound, hh, hp, he]

theorem decodeInbound_pair {cfg : Config} {pos : Position} (x : Byte) (xs : List Byte) (hh : cfg.esc ≠ cfg.header)
    (hp : pos.phase ≠ .awaitHeader) (he : pos.esc = false) :
    decodeInbound cfg pos (cfg.esc :: x :: xs) = .ok (pairToken cfg x, xs) := by
  simp [decodeInbound, hh, hp, he]

theorem decodeInbound_literal {cfg : Config} {pos : Position} {b : Byte} (bs : List Byte) (hb : b ≠ cfg.header)
    (hp : pos.phase ≠ .awaitHeader) (he : pos.esc = false) (hx : b ≠ cfg.esc) :
    decodeInbound cfg pos (b :: bs) = .ok (.inLiteral b, bs) :=
  (if_neg hb).trans ((if_neg hp).trans ((if_neg (ne_true_of_eq_false he)).trans (if_neg hx)))

/-- What is still to come of a pair is read as that pair's row. -/
theorem decodeInbound_pairBytes {cfg : Config} {pos : Position} {x : Byte} (hh : cfg.esc ≠ cfg.header)
    (hp : pos.phase ≠ .awaitHeader) (hx : pos.esc = true → x ≠ cfg.header) :
    decodeInbound cfg pos (pairBytes cfg pos x) = .ok (pairToken cfg x, []) := by
  cases he : pos.esc
  · rw [pairBytes_whole x he, decodeInbound_pair x [] hh hp he]
  · rw [pairBytes_pending x hp he, decodeInbound_pending [] (hx he) hp he]

/-! ### Rows and their wire bytes -/

/-- A burst begins with a well-formed row, and what the decoder takes off the burst for it is its encoding. -/
theorem decodeInbound_cons (cfg : Config) (pos : Position) (b : Byte) (bs : List Byte) :
    ∃ i bytes rest, decodeInbound cfg pos (b :: bs) = .ok (i, rest) ∧ wellFormed cfg pos i = true ∧
      encode cfg pos i = .inbound bytes ∧ bytes ++ rest = b :: bs := by
  by_cases hb : b = cfg.header
  · subst hb
    exact ⟨_, _, _, decodeInbound_header cfg pos bs, rfl, rfl, rfl⟩
  by_cases hp : pos.phase = .awaitHeader
  · exact ⟨_, _, _, decodeInbound_unsynced bs hb hp, by simp [wellFormed, Position.inFrame, hp, hb], rfl, rfl⟩
  cases he : pos.esc
  · by_cases hx : b = cfg.esc
    · subst hx
      cases bs with
      | nil => exact ⟨_, _, _, decodeInbound_escPrefix hb hp he, by simp [wellFormed, inFrame_iff.mpr hp, he], rfl, rfl⟩
      | cons x xs =>
        exact ⟨_, _, _, decodeInbound_pair x xs hb hp he, wellFormed_pairToken hp (by simp [he]), encode_pairToken cfg pos x,
          by rw [pairBytes_whole x he]; rfl⟩
    · exact ⟨_, _, _, decodeInbound_literal bs hb hp he hx, by simp [wellFormed, inFrame_iff.mpr hp, he, hb, hx], rfl, rfl⟩
  · exact ⟨_, _, _, decodeInbound_pending bs hb hp he, wellFormed_pairToken hp fun _ => hb, encode_pairToken cfg pos b,
      by rw [pairBytes_pending b hp he]; rfl⟩

/-- The rows that are encoded as inbound bytes are inbound instructions, encoded as the wire bytes they take. -/
theorem encode_eq_inbound {cfg : Config} {pos : Position} {i : Instr} {bytes : List Byte}
    (h : encode cfg pos i = .inbound bytes) : isOutbound i = false ∧ i ≠ .reset ∧ wireBytes cfg pos i = bytes := by
  cases i with
  | feed | encode | passthru | reset | outUnitCtrl | outUnitPt | outUnitReserved => cases h
  | inHeader | inEscPrefix | inEscSub | inEscEsc | inEscHeader | inEscBad | inLiteral | inUnsynced =>
    cases h
    exact ⟨rfl, nofun, rfl⟩

theorem encode_inbound_ne_nil (cfg : Config) (pos : Position) (i : Instr) : encode cfg pos i ≠ .inbound [] := by
  have hpair : ∀ x, pairBytes cfg pos x ≠ [] := by
    intro x
    simp only [pairBytes]
    split <;> exact List.cons_ne_nil _ _
  cases i with
  | inEscSub | inEscEsc | inEscHeader | inEscBad => exact fun h => hpair _ (Raw.inbound.inj h)
  | feed | encode | passthru | reset | outUnitCtrl | outUnitPt | outUnitReserved => exact nofun
  | inHeader | inEscPrefix | inLiteral | inUnsynced => exact nofun

theorem exec_of_encode_inbound {s : State} {i : Instr} {bytes : List Byte}
    (h : encode s.cfg s.position i = .inbound bytes) : exec i s = feedBytes bytes s := by
  obtain ⟨hi, hr, rfl⟩ := encode_eq_inbound h
  exact exec_eq_feedBytes s hi hr

/-! ### The encoder and the decoder of a whole transaction -/

/-- A burst that is one row leaves nothing over. -/
theorem decode_inbound_row {cfg : Config} {pos : Position} {bytes : List Byte} {i : Instr}
    (h : decodeInbound cfg pos bytes = .ok (i, [])) : decode cfg pos (.inbound bytes) = .ok (i, none) := by
  simp only [decode, h]
  rfl

@[simp] theorem decodeWord_feed (b : Byte) : decodeWord (requestWord 0#2 b) = .ok (.feed b) := by simp [decodeWord]

@[simp] theorem decodeWord_passthru (b : Byte) : decodeWord (requestWord 2#2 b) = .ok (.passthru b) := by simp [decodeWord]

@[simp] theorem decodeWord_reset : decodeWord (requestWord 3#2 0#8) = .ok .reset := by simp [decodeWord]

@[simp] theorem decodeWord_resetOperand {b : Byte} (h : b ≠ 0#8) :
    decodeWord (requestWord 3#2 b) = .error (.resetOperand b) := by simp [decodeWord, h]

theorem decode_unit_tagCtrl (cfg : Config) (pos : Position) (w : Byte) :
    decode cfg pos (.unit cfg.tagCtrl w) = .ok (.outUnitCtrl w, none) := by rw [decode, decodeUnit, if_pos rfl]

theorem decode_unit_tagPt {cfg : Config} (h : cfg.tagCtrl ≠ cfg.tagPt) (pos : Position) (w : Byte) :
    decode cfg pos (.unit cfg.tagPt w) = .ok (.outUnitPt w, none) := by
  rw [decode, decodeUnit, if_neg h.symm, if_pos rfl]

/-- The row of a pair is read back from what is still to come of that pair. -/
theorem decode_pairBytes {cfg : Config} {pos : Position} {x : Byte} {i : Instr} (hh : cfg.esc ≠ cfg.header)
    (hp : pos.inFrame = true) (hx : pos.esc = true → x ≠ cfg.header) (hi : pairToken cfg x = i) :
    decode cfg pos (.inbound (pairBytes cfg pos x)) = .ok (i, none) :=
  hi ▸ decode_inbound_row (decodeInbound_pairBytes hh (inFrame_iff.mp hp) hx)

/-! ### The statements -/

/-- Settles O49: a request word's two fields are read back, an inbound row's wire bytes are taken off whole, and a unit's tag tells
its row. -/
theorem decodeInvertsEncode : Obligations.DecodeInvertsEncode := by
  intro cfg pos i hw h
  obtain ⟨hhe, hsh, hse, ht, _⟩ := hw
  cases i with
  | feed | passthru | reset => simp [encode, decode, Except.map]
  | encode c d p => simp [encode, decode, decodeRecord, Except.map]
  | inHeader => exact decode_inbound_row (decodeInbound_header cfg pos [])
  | inEscPrefix =>
    simp only [wellFormed, Bool.and_eq_true, Bool.not_eq_true'] at h
    obtain ⟨hf, he⟩ := h
    exact decode_inbound_row (decodeInbound_escPrefix hhe.symm (inFrame_iff.mp hf) he)
  | inEscSub => exact decode_pairBytes hhe.symm h (fun _ => hsh) (pairToken_sub hsh)
  | inEscEsc => exact decode_pairBytes hhe.symm h (fun _ => hhe.symm) (pairToken_esc hhe.symm hse.symm)
  | inEscHeader =>
    simp only [wellFormed, Bool.and_eq_true, Bool.not_eq_true'] at h
    obtain ⟨hf, he⟩ := h
    exact decode_pairBytes hhe.symm hf (by simp [he]) (pairToken_header cfg)
  | inEscBad x =>
    simp only [wellFormed, Bool.and_eq_true, bne_iff_ne] at h
    obtain ⟨⟨⟨hf, hs⟩, he⟩, hb⟩ := h
    exact decode_pairBytes hhe.symm hf (fun _ => hb) (pairToken_bad hb hs he)
  | inLiteral b =>
    simp only [wellFormed, Bool.and_eq_true, bne_iff_ne, Bool.not_eq_true'] at h
    obtain ⟨⟨⟨hf, he⟩, hb⟩, hx⟩ := h
    exact decode_inbound_row (decodeInbound_literal [] hb (inFrame_iff.mp hf) he hx)
  | inUnsynced b =>
    simp only [wellFormed, Bool.and_eq_true, bne_iff_ne, Position.inFrame, Bool.not_eq_true', bne_eq_false_iff_eq] at h
    obtain ⟨hp, hb⟩ := h
    exact decode_inbound_row (decodeInbound_unsynced [] hb hp)
  | outUnitCtrl w => exact decode_unit_tagCtrl cfg pos w
  | outUnitPt w => exact decode_unit_tagPt ht pos w
  | outUnitReserved tag w =>
    simp only [wellFormed, Bool.and_eq_true, bne_iff_ne] at h
    obtain ⟨hctrl, hpt⟩ := h
    rw [encode, decode, decodeUnit, if_neg hctrl, if_neg hpt]

/-- Settles O50, by the kinds of byte that a burst can begin with. -/
theorem inboundBytesHaveOneReading : Obligations.InboundBytesHaveOneReading := fun cfg pos b bs _ => decodeInbound_cons cfg pos b bs

/-- Settles O48: the row takes the wire bytes that it is encoded as, one FEED each. -/
theorem inboundRowActsAsItsWireBytes : Obligations.InboundRowActsAsItsWireBytes :=
  fun s _ bytes h => (exec_of_encode_inbound h).trans (execAll_feeds bytes s).symm

/-- Settles O47: the byte's row takes at least one byte, so it takes that one. -/
theorem feedIsItsInboundRow : Obligations.FeedIsItsInboundRow := by
  intro s b
  obtain ⟨i, bytes, rest, hd, -, henc, happ⟩ := decodeInbound_cons s.cfg s.position b []
  rcases List.append_eq_singleton_iff.mp happ with ⟨rfl, -⟩ | ⟨rfl, rfl⟩
  · exact absurd henc (encode_inbound_ne_nil _ _ _)
  · exact ⟨i, hd, (feedBytes_singleton b s).symm.trans (exec_of_encode_inbound henc).symm⟩

/-- Settles O46: the equations of rule R68 in their order, with the rows of a pair told apart by rule R8. -/
theorem inboundPrecedence : Obligations.InboundPrecedence := by
  intro cfg pos b ⟨hhe, hsh, hse, _⟩
  refine ⟨?_, fun hb hp => decodeInbound_unsynced [] hb hp, ?_, ?_, ?_, fun hp he hb hs hx => ?_,
    fun hb hp he hx => decodeInbound_literal [] hb hp he hx⟩
  · rintro rfl
    exact decodeInbound_header cfg pos []
  · rintro hp he rfl
    exact decodeInbound_escPrefix hhe.symm hp he
  · rintro hp he rfl
    rw [decodeInbound_pending [] hsh hp he, pairToken_sub hsh]
  · rintro hp he rfl
    rw [decodeInbound_pending [] hhe.symm hp he, pairToken_esc hhe.symm hse.symm]
  · rw [decodeInbound_pending [] hb hp he, pairToken_bad hb hs hx]

/-- Settles O51: each word evaluates to its row. -/
theorem sampleWordsDecode : Obligations.SampleWordsDecode := ⟨rfl, rfl, rfl, rfl, rfl, rfl, rfl, by decide, by decide⟩

end Sys2Proof.Machine

/-! ## Escape pairs and frames (41_inbound_reassembler.md sections 2 and 3)

A pair row has one meaning, whether its `ESC` has been taken already or is still to come: the second byte is fed to a decoder with
the escape pending. And since a header restarts the decoder from every state, whatever a frame finds there does not matter to it. -/

namespace Sys2Proof.Machine

/-! ### The rows of an escape pair -/

theorem Decoder.setEsc_of_esc {d : Decoder} (h : d.esc = true) : d.setEsc = d := by rw [Decoder.setEsc, ← h]

/-- A pair row feeds its second byte to a decoder with the escape pending; an `ESC` still to come signals nothing. -/
theorem exec_pairRow {i : Instr} {s : State} {x : Byte} {d : Decoder} {o : Outputs} (hc : s.cfg.header ≠ s.cfg.esc)
    (hp : s.dec.phase ≠ .awaitHeader) (hi : encode s.cfg s.position i = .inbound (pairBytes s.cfg s.position x))
    (h : s.dec.setEsc.feed s.cfg x = .ok (d, o)) :
    exec i s = .next { s with
      dec := d, results := s.results ++ (if s.dec.esc = true then [] else [⟨none, .none, none⟩]) ++ [o] } := by
  rw [exec_of_encode_inbound hi]
  cases he : s.dec.esc
  · rw [pairBytes_whole x he, List.append_assoc]
    exact feedBytes_append_received (ys := [x]) (feedBytes_singleton_received (Decoder.feed_escPrefix hc hp he))
      (feedBytes_singleton_received h)
  · rw [pairBytes_pending x hp he, if_pos rfl, List.append_nil]
    exact feedBytes_singleton_received (Decoder.setEsc_of_esc he ▸ h)

/-- The second byte of a pair alone, where the escape is pending. -/
theorem exec_feed_pending {s : State} {x : Byte} {d : Decoder} {o : Outputs} (he : s.dec.esc = true)
    (h : s.dec.setEsc.feed s.cfg x = .ok (d, o)) : exec (.feed x) s = .next (s.decoded d o) :=
  exec_feed_of_feed (Decoder.setEsc_of_esc he ▸ h)

/-- The second byte of a pair that stands for `v` has `v` placed. That the escape is pending then makes no difference to where. -/
theorem Placed.of_pair {cfg : Config} {d : Decoder} {x v : Byte} (hd : IndexInv cfg d) (hp : d.phase ≠ .awaitHeader)
    (hx : Resolves cfg true x v) : ∃ d' o, Placed cfg d v d' o ∧ d.setEsc.feed cfg x = .ok (d', o) := by
  obtain ⟨d', o, hf⟩ := Decoder.feed_total (d := d.setEsc) x hd
  exact ⟨d', o, Placed.of_feed (d := d.setEsc) hd hp hx hf, hf⟩

/-! ### What a FEED can change of the phase and of the buffer -/

theorem Stores.not_of_full {cfg : Config} {d : Decoder} {b : Byte} (h : ¬ (d.idx < d.len.toNat ∧ d.idx < cfg.bufCap)) :
    ¬ Stores cfg d b := fun ⟨_, hi, hc, _⟩ => h ⟨hi, hc⟩

/-- The edges out of a frame that a logical byte takes: a length byte, a stored body byte, or the end of the frame. -/
theorem Decoder.place_edges {cfg : Config} {d d' : Decoder} {v : Byte} {o : Outputs} (hp : d.phase ≠ .awaitHeader)
    (h : d.place cfg v = .ok (d', o)) :
    (d.phase = .awaitLength ∧ d'.phase = .body ∧ d'.buf = d.buf) ∨
    (d.phase = .body ∧ d.idx < d.len.toNat ∧ d.idx < cfg.bufCap ∧ d'.phase = .body ∧ d'.buf = bufWrite d.buf d.idx v) ∨
    (d.phase = .body ∧ ¬ (d.idx < d.len.toNat ∧ d.idx < cfg.bufCap) ∧ d'.phase = .awaitHeader ∧ d'.buf = d.buf) := by
  rcases Decoder.place_cases h with
    ⟨hp', _⟩ | ⟨hp', rfl, _⟩ | ⟨hp', hi, hc, rfl, _⟩ | ⟨hp', _, hc, rfl, _⟩ | ⟨hp', hi, hcheck⟩
  · exact absurd hp' hp
  · exact .inl ⟨hp', rfl, rfl⟩
  · exact .inr (.inl ⟨hp', hi, hc, hp', rfl⟩)
  · exact .inr (.inr ⟨hp', fun h => Nat.not_lt.mpr hc h.2, rfl, rfl⟩)
  · rcases Decoder.check_cases hcheck with ⟨_, rfl, _⟩ | ⟨_, rfl, _⟩
    all_goals exact .inr (.inr ⟨hp', fun h => hi h.1, rfl, rfl⟩)

/-- `BUF` changes only where a body byte is stored, and only at `S.idx`. -/
theorem Decoder.feed_buf {cfg : Config} {d d' : Decoder} {b : Byte} {o : Outputs} (h : d.feed cfg b = .ok (d', o)) :
    d'.buf = d.buf ∨ Stores cfg d b ∧ ∃ v, d'.buf = bufWrite d.buf d.idx v := by
  rcases Decoder.feed_split cfg d b with
    ⟨_, hf⟩ | ⟨_, _, hf⟩ | ⟨_, _, _, _, hf⟩ | ⟨_, _, _, hf⟩ | ⟨hp, v, hr, hf⟩
  case inr.inr.inr.inr =>
    rcases Decoder.place_edges (d := d.clearEsc) hp (hf.symm.trans h) with
      ⟨_, _, hbuf⟩ | ⟨hp', hi, hc, _, hbuf⟩ | ⟨_, _, _, hbuf⟩
    · exact .inl hbuf
    · exact .inr ⟨⟨hp', hi, hc, v, hr⟩, v, hbuf⟩
    · exact .inl hbuf
  all_goals
    cases hf.symm.trans h
    exact .inl rfl

/-- A delivered frame has the declared length, and that many bytes. -/
theorem Decoder.feed_frame {cfg : Config} {d d' : Decoder} {b : Byte} {o : Outputs} {f : Frame}
    (h : d.feed cfg b = .ok (d', o)) (ho : o.frame = some f) : f.len = d.len ∧ f.bytes.length = f.len.toNat := by
  rcases Decoder.feed_split cfg d b with
    ⟨_, hf⟩ | ⟨_, _, hf⟩ | ⟨_, _, _, _, hf⟩ | ⟨_, _, _, hf⟩ | ⟨_, v, _, hf⟩
  case inr.inr.inr.inr =>
    rcases Decoder.place_cases (hf.symm.trans h) with
      ⟨_, _, rfl⟩ | ⟨_, _, rfl⟩ | ⟨_, _, _, _, rfl⟩ | ⟨_, _, _, _, rfl⟩ | ⟨_, _, hcheck⟩
    case inr.inr.inr.inr =>
      rcases Decoder.check_cases hcheck with ⟨_, _, bytes, hs, rfl⟩ | ⟨_, _, rfl⟩
      · obtain ⟨hlen, -⟩ := bufSlice_ok hs
        cases ho
        exact ⟨rfl, hlen⟩
      · cases ho
    all_goals cases ho
  all_goals
    cases hf.symm.trans h
    cases ho

/-! ### Runs of any bytes -/

theorem Decoder.Alike.refl {cfg : Config} {d : Decoder} (hd : IndexInv cfg d) : d.Alike cfg d :=
  ⟨rfl, fun _ => rfl, fun _ => rfl, fun _ => rfl, fun _ => rfl, hd, fun _ _ _ => rfl⟩

/-- A FEED answers and keeps the index bounds: the simulation of decoders that agree, of a decoder with itself. -/
theorem IndexInv.feed {cfg : Config} {d : Decoder} (b : Byte) (hd : IndexInv cfg d) :
    ∃ d' o, d.feed cfg b = .ok (d', o) ∧ IndexInv cfg d' := by
  obtain ⟨d', _, o, hf, -, halike⟩ := (Decoder.Alike.refl hd).feed b
  exact ⟨d', o, hf, halike.index⟩

theorem feedBytes_completes (bs : List Byte) {s : State} (hd : IndexInv s.cfg s.dec) :
    ∃ d rs, feedBytes bs s = .next (s.received d rs) := by
  induction bs generalizing s with
  | nil => exact ⟨s.dec, [], by simp [feedBytes, State.received]⟩
  | cons b bs ih =>
    obtain ⟨d, o, hf, hd'⟩ := hd.feed b
    obtain ⟨d', rs, hrun⟩ := ih (s := s.decoded d o) hd'
    exact ⟨d', o :: rs, by rw [feedBytes_cons_next (State.feedByte_of_feed hf), hrun, State.decoded_received]⟩

/-! ### Frames with a checksum that does not match -/

theorem declaredLength_toNat_of_le {n : Nat} (h : n + 2 ≤ 255) : (declaredLength n).toNat = n + 2 :=
  (BitVec.toNat_ofNat ..).trans (Nat.mod_eq_of_lt (by omega))

/-- From every state, a frame that fits the buffer but carries another checksum is discarded at its last byte. -/
theorem feedBytes_mismatch {s : State} {len sum : Byte} {bytes : List Byte} (hw : s.cfg.wf) (hl : bytes.length = len.toNat)
    (hc : bytes.length ≤ s.cfg.bufCap) (hsum : sum ≠ sumBytes (s.cfg.header :: len :: bytes)) :
    ∃ early, framesOf early = [] ∧ feedBytes (s.cfg.header :: escapeAll s.cfg (len :: bytes ++ [sum])) s =
      .next (s.received ((s.dec.inBody s.cfg len bytes).error .checksumMismatch).1
        (early ++ [.signal .checksumMismatch])) := by
  have hcheck : (s.dec.inBody s.cfg len bytes).place s.cfg sum =
      .ok ((s.dec.inBody s.cfg len bytes).error .checksumMismatch) :=
    (Decoder.place_checksum sum rfl hl).trans (Decoder.check_mismatch hsum)
  have hframe := feedBytes_append_received (feedBytes_toChecksum hw hl.le hc)
    (feedBytes_escapeByte (s := s.received (s.dec.inBody s.cfg len bytes) _) hw nofun rfl hcheck)
  rw [← List.append_assoc] at hframe
  rw [escapeAll_append, escapeAll_singleton, ← List.cons_append]
  exact ⟨_, by simp, hframe⟩

/-! ### The statements -/

/-- Settles O25: the frame's bytes with the checksum that the encoder gives them. -/
theorem resynchronizesOnEveryFrame : Obligations.ResynchronizesOnEveryFrame := by
  intro s c d p hw hlen hcap
  have hframe := feedBytes_frame (len := declaredLength p.length) (bytes := c :: d :: p) hw
    (declaredLength_toNat_of_le hlen).symm hcap (sum := frameChecksum s.cfg c d p) rfl
  refine ⟨_, (execAll_feeds _ s).trans hframe, ?_, rfl, rfl, rfl, rfl⟩
  simp [frameBytes, declaredLength, Outputs.signal, Outputs.idle, Outputs.deliver]

/-- Settles O28: one changed body byte changes the sum, so either way the checksum byte is not the sum of what came before it. -/
theorem alteredByteIsDetected : Obligations.AlteredByteIsDetected := by
  intro s c d p pre post x y z hw hp hbody halt
  have hlen : (pre ++ y :: post).length = p.length + 2 := by
    have := congrArg List.length hbody
    simp only [List.length_cons, List.length_append] at this ⊢
    omega
  have hcap : (pre ++ y :: post).length ≤ s.cfg.bufCap := by
    obtain ⟨_, _, _, _, _, hcap, _⟩ := hw
    omega
  have horiginal : frameChecksum s.cfg c d p = sumBytes (s.cfg.header :: declaredLength p.length :: pre ++ x :: post) :=
    congrArg (fun bytes => sumBytes (s.cfg.header :: declaredLength p.length :: bytes)) hbody
  have hsum : z ≠ sumBytes (s.cfg.header :: declaredLength p.length :: pre ++ y :: post) := by
    rcases halt with ⟨hy, rfl⟩ | ⟨rfl, hz⟩
    · rw [horiginal]
      obtain ⟨hdetect, -⟩ := checksumErrorDetection
      obtain ⟨-, hne⟩ := hdetect (s.cfg.header :: declaredLength p.length :: pre) post x y
      exact (hne hy).symm
    · exact horiginal ▸ hz
  obtain ⟨early, hearly, hrun⟩ := feedBytes_mismatch hw (hlen.trans (declaredLength_toNat hw hp).symm) hcap hsum
  exact ⟨_, early, (execAll_feeds _ s).trans hrun, (List.append_assoc ..).symm, hearly, rfl⟩

/-- Settles O26: whatever decoder state the garbage leaves, the frame is delivered from it. -/
theorem garbageNeverBlocksFrame : Obligations.GarbageNeverBlocksFrame := by
  intro s garbage c d p hw hd hp
  obtain ⟨e, rs, hgarbage⟩ := feedBytes_completes garbage hd
  have hcap : p.length + 2 ≤ s.cfg.bufCap := by
    obtain ⟨_, _, _, _, _, hcap, _⟩ := hw
    omega
  have hframe := feedBytes_frame (s := s.received e rs) (len := declaredLength p.length) (bytes := c :: d :: p) hw
    (declaredLength_toNat hw hp).symm hcap (sum := frameChecksum s.cfg c d p) rfl
  refine ⟨_, framesOf rs, (execAll_feeds _ s).trans ((feedBytes_append_next hgarbage).trans hframe), ?_, rfl⟩
  simp [declaredLength]

/-- Settles O8: `SUB` after an escape resolves to `HEADER`. -/
theorem escapedHeaderIsPlaced : Obligations.EscapedHeaderIsPlaced := by
  intro s ⟨hhe, hsh, _⟩ hd hp
  obtain ⟨d, o, hpl, hf⟩ := Placed.of_pair hd hp (Resolves.of_unescapeByte hsh (unescapeByte_sub s.cfg))
  have hrow := exec_pairRow (i := .inEscSub) hhe hp rfl hf
  exact ⟨d, o, hpl, fun he => ⟨exec_feed_pending he hf, by simpa [he] using hrow⟩, fun he => by simpa [he] using hrow⟩

/-- Settles O9: `ESC` after an escape resolves to `ESC`. -/
theorem escapedEscapeIsPlaced : Obligations.EscapedEscapeIsPlaced := by
  intro s ⟨hhe, _, hse, _⟩ hd hp
  obtain ⟨d, o, hpl, hf⟩ := Placed.of_pair hd hp (Resolves.of_unescapeByte hhe.symm (unescapeByte_esc hse.symm))
  have hrow := exec_pairRow (i := .inEscEsc) hhe hp rfl hf
  exact ⟨d, o, hpl, fun he => ⟨exec_feed_pending he hf, by simpa [he] using hrow⟩, fun he => by simpa [he] using hrow⟩

/-- Settles O11: under `Literal` the second byte of a bad escape resolves to itself. -/
theorem badEscapeUnderLiteralIsPlaced : Obligations.BadEscapeUnderLiteralIsPlaced := by
  intro s x ⟨hhe, _⟩ hd hp hl hs hx hb
  obtain ⟨d, o, hpl, hf⟩ := Placed.of_pair (x := x) hd hp ⟨hb, .inr (.inr (.inr ⟨rfl, hs, hx, hl, rfl⟩))⟩
  exact ⟨d, o, hpl, fun he => exec_feed_pending he hf, exec_pairRow (i := .inEscBad x) hhe hp rfl hf⟩

/-- Settles O15: under the invariant the buffer's first `S.len` entries are the bytes that have been summed. -/
theorem checksumMatchDelivers : Obligations.ChecksumMatchDelivers := by
  intro s b hinv hp hi hr
  obtain ⟨bytes, hlen, hstored, hsum⟩ := hinv.bodySum hp
  have hcap := hinv.idxBound
  have hslice := bufSlice_of_lookup (cap := s.cfg.bufCap) (m := s.dec.buf) (i := 0) (bytes := bytes) (by omega)
    fun k hk => by simpa using hstored k (by omega)
  have hfeed := Decoder.feed_of_resolves (hp.trans_ne (by decide)) hr
  have hcheck := Decoder.place_checksum (cfg := s.cfg) (d := s.dec.clearEsc) s.dec.csum hp hi
  rw [hlen, hi] at hslice
  exact ⟨bytes, exec_feed_of_feed (hfeed.trans (hcheck.trans (Decoder.check_match hslice))), hlen.trans hi,
    fun i h => hstored i (by omega), hsum⟩

/-- Settles O18: a FEED answers under the index bounds, and `BUF` changes only at `S.idx` and only by a store. -/
theorem feedCompletesWithItsFrame : Obligations.FeedCompletesWithItsFrame := by
  intro s b hd
  obtain ⟨d, o, hf⟩ := Decoder.feed_total b hd
  refine ⟨_, o, exec_feed_of_feed hf, rfl, rfl, rfl, rfl, Decoder.feed_resp hf, fun _ i hi => ?_, fun hno i => ?_⟩
  · rcases Decoder.feed_buf hf with hbuf | ⟨_, v, hbuf⟩
    · rw [State.decoded_dec, hbuf]
    · rw [State.decoded_dec, hbuf, bufRead_bufWrite_other _ _ v hi]
  · rcases Decoder.feed_buf hf with hbuf | ⟨hst, _⟩
    · rw [State.decoded_dec, hbuf]
    · exact absurd hst hno

/-- Settles O20: the five kinds of byte, and for a logical byte the three edges that placing it takes. -/
theorem phaseGraph : Obligations.PhaseGraph := by
  intro s t b _ h
  obtain ⟨d, o, hf, rfl⟩ := State.feedByte_next h
  rcases Decoder.feed_split s.cfg s.dec b with
    ⟨hb, hf'⟩ | ⟨hb, hp, hf'⟩ | ⟨_, hp, he, hb, hf'⟩ | ⟨hp, hbad, hl, hf'⟩ | ⟨hp, v, hr, hf'⟩
  · cases hf'.symm.trans hf
    exact .inl ⟨hb, rfl⟩
  · cases hf'.symm.trans hf
    exact .inr (.inl ⟨hp, hb, hp⟩)
  · cases hf'.symm.trans hf
    exact .inr (.inr (.inl ⟨hp, he, hb, rfl⟩))
  · cases hf'.symm.trans hf
    exact .inr (.inr (.inr (.inl ⟨hp, hbad, hl, rfl⟩)))
  · rcases Decoder.place_edges (d := s.dec.clearEsc) hp (hf'.symm.trans hf) with
      ⟨hp', hbody, _⟩ | ⟨hp', hi, hc, hbody, _⟩ | ⟨hp', hfull, hend, _⟩
    · exact .inr (.inr (.inr (.inr (.inl ⟨hp', ⟨v, hr⟩, hbody⟩))))
    · exact .inr (.inr (.inr (.inr (.inr (.inl ⟨⟨hp', hi, hc, v, hr⟩, hbody⟩)))))
    · exact .inr (.inr (.inr (.inr (.inr (.inr ⟨hp', ⟨v, hr⟩, Stores.not_of_full hfull, hend⟩)))))

/-- Settles O22: the frame's length is that of its bytes, and from two bytes on they split into the three views. -/
theorem deliveredFrameViews : Obligations.DeliveredFrameViews := by
  intro s t b o f h ho hframe
  obtain ⟨d, hf, -⟩ := exec_feed_next h ho
  obtain ⟨hlen, hbytes⟩ := Decoder.feed_frame hf hframe
  refine ⟨hlen, hbytes, fun h2 => ?_, fun h2 => ?_⟩
  · obtain ⟨len, bytes⟩ := f
    match bytes, hbytes.symm ▸ h2 with
    | c :: e :: p, _ => exact ⟨c, e, p, rfl, if_pos h2, if_pos h2, if_pos h2⟩
  · have h2 := Nat.not_le.mpr h2
    exact ⟨if_neg h2, if_neg h2, if_neg h2⟩

/-- Settles O7: `HEADER` after an escape is the frame start of rule R102, with a frame in progress. -/
theorem escapeThenHeaderRestarts : Obligations.EscapeThenHeaderRestarts := by
  intro s ⟨hhe, _⟩ hp
  rw [exec_pairRow (i := .inEscHeader) hhe hp rfl (Decoder.feed_header s.cfg s.dec.setEsc)]
  simp [Decoder.setEsc, hp, Outputs.signal]

/-- Settles O10: the error of a bad escape clears the flag, so it does not matter who has set it. -/
theorem badEscapeDiscardsFrame : Obligations.BadEscapeDiscardsFrame := by
  intro s x ⟨hhe, _⟩ hp hl hs hx hb
  have hf := Decoder.feed_of_badEscape (d := s.dec.setEsc) hp ⟨rfl, hs, hx, hb⟩ hl
  exact ⟨fun he => exec_feed_pending he hf, exec_pairRow (i := .inEscBad x) hhe hp rfl hf⟩

end Sys2Proof.Machine

/-! ## The schedule (20_memory.md section 5, 70_reset_and_hazards.md section 3)

A step is its fetch and then one instruction: the fetch changes the schedule alone, and the instruction leaves the schedule alone. An
inbound burst is consumed row by row, and each row is the FEEDs of the bytes it takes; so the rows of a burst add up to its bytes. -/

namespace Sys2Proof.Machine

/-! ### What a fetch finds, one equation per form of the schedule -/

theorem State.fetch_badConfig {s : State} (hw : ¬ s.cfg.wf) : s.fetch = .refuse .badConfig := if_neg hw

theorem State.fetch_nil {s : State} (hw : s.cfg.wf) (h : s.requests = []) : s.fetch = .idle := by
  simp only [State.fetch, if_pos hw, h]

theorem State.fetch_one {s : State} {r : Raw} {rest : List Slot} (hw : s.cfg.wf) (h : s.requests = .one r :: rest) :
    s.fetch = { s with requests := rest }.fetchRaw r := by simp only [State.fetch, if_pos hw, h]

theorem State.fetch_conflict {s : State} {a b : Raw} {rest : List Slot} (hw : s.cfg.wf)
    (h : s.requests = .overlap a b :: rest) (hc : overlapConflict a b = true) : s.fetch = .refuse .overlap := by
  simp only [State.fetch, if_pos hw, h, if_pos hc]

theorem State.fetch_held {s : State} {a b : Raw} {rest : List Slot} (hw : s.cfg.wf)
    (h : s.requests = .overlap a b :: rest) (hc : overlapConflict a b = false) :
    s.fetch = { s with requests := .one b :: rest }.fetchRaw a := by
  simp only [State.fetch, if_pos hw, h, hc, Bool.false_eq_true, if_false]

/-! ### What a step does -/

theorem step_of_idle {s : State} (h : s.fetch = .idle) : step s = .next s := by simp only [step, h]

theorem step_of_refuse {s : State} {r : Refusal} (h : s.fetch = .refuse r) : step s = .refused r := by simp only [step, h]

theorem step_of_run {s t : State} {i : Instr} (h : s.fetch = .run i t) : step s = exec i t := by simp only [step, h]

/-- What is left over of a transaction stands at the head of the schedule again. -/
theorem State.requeue_eq (s : State) (more : Option Raw) :
    s.requeue more = { s with requests := more.toList.map Slot.one ++ s.requests } := by cases more <;> rfl

/-- All a fetched transaction can do: it is refused, or runs an instruction that is no part of an operation. -/
theorem State.fetchRaw_cases (s : State) (r : Raw) :
    (∃ e, s.fetchRaw r = .refuse e) ∨ ∃ i more, isInternal i = false ∧ s.fetchRaw r = .run i (s.requeue more) := by
  rcases hd : decode s.cfg s.position r with e | ⟨i, more⟩
  · exact .inl ⟨.undecodable e, by simp only [State.fetchRaw, hd]⟩
  · rw [State.fetchRaw_of_decode hd]
    cases hi : isInternal i
    · exact .inr ⟨i, more, hi, if_neg Bool.false_ne_true⟩
    · exact .inl ⟨.internalUnit, if_pos rfl⟩

/-- A step runs the instruction that the transaction at the head decodes to, unless it is a part of an operation. -/
theorem step_of_decode {s : State} {r : Raw} {rest : List Slot} {i : Instr} {more : Option Raw} (hw : s.cfg.wf)
    (hr : s.requests = .one r :: rest) (hd : decode s.cfg s.position r = .ok (i, more)) :
    step s = if isInternal i then .refused .internalUnit
      else exec i { s with requests := more.toList.map Slot.one ++ rest } := by
  have hfetch := State.fetch_one hw hr
  rw [State.fetchRaw_of_decode (s := { s with requests := rest }) hd] at hfetch
  split at hfetch
  next hi => rw [step_of_refuse hfetch, if_pos hi]
  next hi => rw [step_of_run hfetch, if_neg hi, State.requeue_eq]

theorem step_of_undecodable {s : State} {r : Raw} {rest : List Slot} {e : DecodeError} (hw : s.cfg.wf)
    (hr : s.requests = .one r :: rest) (hd : decode s.cfg s.position r = .error e) :
    step s = .refused (.undecodable e) := by
  have hraw : { s with requests := rest }.fetchRaw r = .refuse (.undecodable e) := by
    simp only [State.fetchRaw]
    exact hd ▸ rfl
  exact step_of_refuse ((State.fetch_one hw hr).trans hraw)

/-- All a step that answers a next state can do: nothing has been issued, or an instruction that is no part of an operation runs
where only the schedule has changed. -/
theorem step_next {s t : State} (h : step s = .next t) :
    s.requests = [] ∧ t = s ∨ ∃ i q, isInternal i = false ∧ exec i { s with requests := q } = .next t := by
  have hrun : ∀ {q : List Slot} {r : Raw}, s.fetch = { s with requests := q }.fetchRaw r →
      ∃ i q', isInternal i = false ∧ exec i { s with requests := q' } = .next t := by
    intro q r hfetch
    rcases State.fetchRaw_cases { s with requests := q } r with ⟨e, hraw⟩ | ⟨i, more, hi, hraw⟩
    · cases h.symm.trans (step_of_refuse (hfetch.trans hraw))
    · rw [step_of_run (hfetch.trans hraw), State.requeue_eq] at h
      exact ⟨i, _, hi, h⟩
  rcases State.fetch_cases s with ⟨_, hf⟩ | ⟨_, hnil, hf⟩ | ⟨_, r, rest, _, hf⟩ | ⟨_, a, b, rest, _, hf⟩
  · cases h.symm.trans (step_of_refuse hf)
  · cases h.symm.trans (step_of_idle hf)
    exact .inl ⟨hnil, rfl⟩
  · exact .inr (hrun hf)
  · split at hf
    · cases h.symm.trans (step_of_refuse hf)
    · exact .inr (hrun hf)

/-! ### What an instruction leaves alone -/

/-- An instruction leaves the schedule as it is, and only appends to the results (10_state.md rule R31). -/
theorem exec_next_results {i : Instr} {s t : State} (h : exec i s = .next t) :
    t.requests = s.requests ∧ ∃ rs, t.results = s.results ++ rs := by
  cases hi : isOutbound i
  · obtain ⟨d, rs, -, hrun⟩ := exec_inbound hi h
    cases h.symm.trans (hrun s rfl rfl)
    exact ⟨rfl, rs, rfl⟩
  · cases h.symm.trans (exec_outbound hi h s)
    exact ⟨rfl, _, rfl⟩

theorem isInternal_of_inbound {i : Instr} (hi : isOutbound i = false) : isInternal i = false := by
  cases i with
  | outUnitCtrl | outUnitPt => cases hi
  | feed | encode | passthru | reset | outUnitReserved => rfl
  | inHeader | inEscPrefix | inEscSub | inEscEsc | inEscHeader | inEscBad | inLiteral | inUnsynced => rfl

theorem execAll_outbound_dec {ops : List Instr} {s t : State} (hops : ops.all isOutbound = true)
    (h : execAll ops s = .next t) : t.dec = s.dec := by
  induction ops generalizing s with
  | nil =>
    cases h
    rfl
  | cons i ops ih =>
    rw [List.all_cons, Bool.and_eq_true] at hops
    obtain ⟨hi, hrest⟩ := hops
    simp only [execAll] at h
    split at h
    case h_1 u hu =>
      cases hu.symm.trans (exec_outbound hi hu s)
      exact ih (s := s.sent _ _) hrest h
    all_goals cases h

theorem execAll_singleton (i : Instr) (s : State) : execAll [i] s = exec i s := by
  simp only [execAll]
  cases exec i s <;> rfl

theorem all_isOperation_feeds (bytes : List Byte) : (feeds bytes).all isOperation = true := by
  rw [feeds, List.all_map]
  exact List.all_eq_true.mpr fun _ _ => rfl

/-- An instruction that a step can run is a run of operations: an operation itself, or the FEEDs of a row's wire bytes. -/
theorem exec_next_operations {i : Instr} {s t : State} (hi : isInternal i = false) (h : exec i s = .next t) :
    ∃ ops : List Instr, ops.all isOperation = true ∧ execAll ops s = .next t := by
  cases i with
  | feed | encode | passthru | reset => exact ⟨[_], rfl, (execAll_singleton _ s).trans h⟩
  | inHeader | inEscPrefix | inEscSub | inEscEsc | inEscHeader | inEscBad | inLiteral | inUnsynced =>
    rw [exec_of_encode_inbound rfl, ← execAll_feeds] at h
    exact ⟨_, all_isOperation_feeds _, h⟩
  | outUnitCtrl | outUnitPt => cases hi
  | outUnitReserved => cases h

/-! ### Bursts -/

/-- FEEDs that do not complete fault, alike from every state with the same parameters and decoder, and whatever bytes follow. -/
theorem feedBytes_fault {bs : List Byte} {s : State} (h : ∀ t, feedBytes bs s ≠ .next t) :
    ∃ r, ∀ (u : State) (more : List Byte), u.cfg = s.cfg → u.dec = s.dec → feedBytes (bs ++ more) u = .fault r := by
  induction bs generalizing s with
  | nil => exact absurd rfl (h s)
  | cons b bs ih =>
    rcases hf : s.dec.feed s.cfg b with r | ⟨d, o⟩
    · exact ⟨r, fun u more hc hd => by simp only [List.cons_append, feedBytes, State.feedByte, hc, hd, hf]⟩
    · obtain ⟨r, hr⟩ := ih (s := s.decoded d o) fun t ht => h t ((feedBytes_cons_next (State.feedByte_of_feed hf)).trans ht)
      refine ⟨r, fun u more hc hd => ?_⟩
      rw [List.cons_append, feedBytes_cons_next (State.feedByte_of_feed (by rw [hc, hd, hf]))]
      exact hr (u.decoded d o) more hc rfl

/-- What is left of a burst as the whole schedule. -/
def State.withBurst (s : State) (bytes : List Byte) : State :=
  { s with requests := (leftover bytes).toList.map Slot.one }

/-- A step with a burst as the schedule feeds at least one byte of it, and leaves the rest of it as the schedule. -/
theorem step_withBurst {s : State} (b : Byte) (bs : List Byte) (hw : s.cfg.wf) :
    ∃ bytes rest, bytes ++ rest = b :: bs ∧ bytes ≠ [] ∧
      step (s.withBurst (b :: bs)) = feedBytes bytes (s.withBurst rest) := by
  obtain ⟨i, bytes, rest, hdec, -, henc, happ⟩ := decodeInbound_cons s.cfg s.position b bs
  have hdecode : decode s.cfg s.position (.inbound (b :: bs)) = .ok (i, leftover rest) := by
    simp only [decode, hdec]
    rfl
  obtain ⟨hi, -⟩ := encode_eq_inbound henc
  have hstep := step_of_decode (s := s.withBurst (b :: bs)) hw rfl hdecode
  rw [isInternal_of_inbound hi, if_neg Bool.false_ne_true, List.map_nil, List.append_nil] at hstep
  exact ⟨bytes, rest, happ, by rintro rfl; exact encode_inbound_ne_nil _ _ _ henc,
    hstep.trans (exec_of_encode_inbound (s := s.withBurst rest) henc)⟩

theorem run_succ_of_next {n : Nat} {s t : State} (h : step s = .next t) :
    Host.Core.run core (n + 1) s = Host.Core.run core n t := by
  have hstep : core.step s = .next t := h
  simp only [Host.Core.run, hstep]

theorem run_succ_of_fault {n : Nat} {s : State} {r : Fault} (h : step s = .fault r) :
    Host.Core.run core (n + 1) s = .fault r := by
  have hstep : core.step s = .fault r := h
  simp only [Host.Core.run, hstep]

/-- A run of at least as many steps as a burst has bytes feeds the whole burst, and then finds nothing issued. -/
theorem run_withBurst {n : Nat} {bs : List Byte} {s : State} (hw : s.cfg.wf) (hn : bs.length ≤ n) :
    Host.Core.run core n (s.withBurst bs) = feedBytes bs (s.withBurst []) := by
  induction n generalizing bs s with
  | zero => rw [List.length_eq_zero_iff.mp (Nat.le_zero.mp hn)]; rfl
  | succ n ih =>
    cases bs with
    | nil =>
      rw [run_succ_of_next (step_of_idle (State.fetch_nil (s := s.withBurst []) hw rfl))]
      exact ih hw (Nat.zero_le n)
    | cons b bs =>
      obtain ⟨bytes, rest, happ, hne, hstep⟩ := step_withBurst (s := s) b bs hw
      have hrest : rest.length ≤ n := by
        have hlen := congrArg List.length happ
        have hpos := List.length_pos_iff.mpr hne
        simp only [List.length_append, List.length_cons] at hlen hn
        omega
      by_cases hnext : ∃ t, feedBytes bytes (s.withBurst rest) = .next t
      · obtain ⟨t, ht⟩ := hnext
        obtain ⟨d, rs, -, hall⟩ := feedBytes_received ht
        rw [run_succ_of_next (hstep.trans (hall (s.withBurst rest) rfl rfl)), ← happ,
          feedBytes_append_next (hall (s.withBurst []) rfl rfl)]
        exact ih (s := s.received d rs) hw hrest
      · obtain ⟨r, hfault⟩ := feedBytes_fault (not_exists.mp hnext)
        have hrow := hfault (s.withBurst rest) [] rfl rfl
        rw [List.append_nil] at hrow
        rw [run_succ_of_fault (hstep.trans hrow), ← happ]
        exact (hfault (s.withBurst []) rest rfl rfl).symm

/-! ### The statements -/

/-- Settles O58, by induction on the steps: each takes a row, and the row's bytes are fed as the burst's own. -/
theorem burstRunsAsItsBytes : Obligations.BurstRunsAsItsBytes :=
  fun s b bs hw => (run_withBurst (s := s) hw (Nat.le_refl _)).trans (execAll_feeds (b :: bs) _).symm

/-- Settles O55: a step that runs something runs operations, and each of the three histories only grows. -/
theorem stepOnlyAppends : Obligations.StepOnlyAppends := by
  intro s t h
  rcases step_next h with ⟨hnil, rfl⟩ | ⟨i, q, hi, hrun⟩
  · exact ⟨.inl ⟨hnil, rfl⟩, rfl, ⟨[], (List.append_nil _).symm⟩, ⟨[], (List.append_nil _).symm⟩⟩
  · obtain ⟨hcfg, hout⟩ := exec_next_out hrun
    obtain ⟨hq, hresults⟩ := exec_next_results hrun
    obtain ⟨ops, hops, hall⟩ := exec_next_operations hi hrun
    exact ⟨.inr ⟨ops, hops, hq ▸ hall⟩, hcfg, ⟨_, hout⟩, hresults⟩

/-- Settles O24: outbound instructions leave the decoder to the inbound ones, and an idle step changes nothing. -/
theorem noTimeout : Obligations.NoTimeout :=
  ⟨fun _ _ _ => execAll_outbound_dec, fun _ hw hnil => step_of_idle (State.fetch_nil hw hnil)⟩

/-- Settles O52: the fetch decodes the head of the schedule, and puts back what is left of it. -/
theorem stepRunsTheDecodedInstruction : Obligations.StepRunsTheDecodedInstruction := by
  intro s r rest i more hw hr hd
  have hstep := step_of_decode hw hr hd
  exact ⟨fun hi => by simpa [hi] using hstep, fun hi => by simpa [hi] using hstep⟩

/-- Settles O53: each refusal stands in the fetch, before anything runs. -/
theorem stepRefusesWhatTheSpecRefuses : Obligations.StepRefusesWhatTheSpecRefuses := by
  intro s rest
  refine ⟨fun hw => step_of_refuse (State.fetch_badConfig hw), fun b hw hb hr => ?_, fun b c hw hr => ?_, fun w hw hr => ?_⟩
  · exact step_of_undecodable hw hr (by simp [decode, hb, Except.map])
  · rcases hr with hr | hr | hr
    all_goals exact step_of_refuse (State.fetch_conflict hw hr (by simp [overlapConflict, isFeed, isReset]))
  · have ⟨_, _, _, ht, _⟩ := hw
    rcases hr with hr | hr
    · rw [step_of_decode hw hr (decode_unit_tagCtrl s.cfg s.position w), isInternal, if_pos rfl]
    · rw [step_of_decode hw hr (decode_unit_tagPt ht s.position w), isInternal, if_pos rfl]

/-- Settles O54: both fetches take the earlier transaction and leave the later one at the head. -/
theorem overlappingRequestIsHeld : Obligations.OverlappingRequestIsHeld := by
  intro s a b rest hr hc
  by_cases hw : s.cfg.wf
  · have hheld := State.fetch_held hw hr hc
    have halone := State.fetch_one (s := { s with requests := .one a :: .one b :: rest }) hw rfl
    rcases State.fetchRaw_cases { s with requests := .one b :: rest } a with ⟨e, hraw⟩ | ⟨i, more, _, hraw⟩
    · exact (step_of_refuse (hheld.trans hraw)).trans (step_of_refuse (halone.trans hraw)).symm
    · exact (step_of_run (hheld.trans hraw)).trans (step_of_run (halone.trans hraw)).symm
  · have halone := State.fetch_badConfig (s := { s with requests := .one a :: .one b :: rest }) hw
    exact (step_of_refuse (State.fetch_badConfig hw)).trans (step_of_refuse halone).symm

end Sys2Proof.Machine

/-! ## The invariant (10_state.md section 1, 20_memory.md sections 1 and 3)

Each of the decoder's transitions keeps its invariant, and an operation appends whole units to `OUT`; a step is a run of operations,
so it keeps both. -/

namespace Sys2Proof.Machine

/-! ### The decoder's transitions -/

theorem DecoderInv.frameStart {cfg : Config} {d : Decoder} (h : DecoderInv cfg d) : DecoderInv cfg (d.frameStart cfg).1 :=
  ⟨h.canonical, h.inBuffer, Nat.zero_le _, nofun, fun _ => ⟨rfl, rfl⟩, nofun, nofun⟩

theorem DecoderInv.setEsc {cfg : Config} {d : Decoder} (h : DecoderInv cfg d) (hp : d.phase ≠ .awaitHeader) :
    DecoderInv cfg d.setEsc :=
  ⟨h.canonical, h.inBuffer, h.idxBound, fun hp' => absurd hp' hp, h.started, h.bodyIndex, h.bodySum⟩

theorem DecoderInv.clearEsc {cfg : Config} {d : Decoder} (h : DecoderInv cfg d) : DecoderInv cfg d.clearEsc :=
  ⟨h.canonical, h.inBuffer, h.idxBound, fun _ => rfl, h.started, h.bodyIndex, h.bodySum⟩

/-- With no frame in progress and no escape pending, only the buffer and the index bound are left to hold. -/
theorem DecoderInv.endFrame {cfg : Config} {d : Decoder} (h : DecoderInv cfg d) :
    DecoderInv cfg { d with phase := .awaitHeader, esc := false } :=
  ⟨h.canonical, h.inBuffer, h.idxBound, fun _ => rfl, nofun, nofun, nofun⟩

theorem DecoderInv.takeLength {cfg : Config} {d : Decoder} (v : Byte) (h : DecoderInv cfg d) (hp : d.phase = .awaitLength) :
    DecoderInv cfg { d with phase := .body, csum := d.csum + v, len := v, idx := 0 } := by
  obtain ⟨hcsum, -⟩ := h.started hp
  refine ⟨h.canonical, h.inBuffer, Nat.zero_le _, nofun, nofun, fun _ => Nat.zero_le _, fun _ => ⟨[], rfl, nofun, ?_⟩⟩
  simp [hcsum]

/-- A stored byte is written at the end of the body, and summed after it. -/
theorem DecoderInv.store {cfg : Config} {d : Decoder} (v : Byte) (h : DecoderInv cfg d) (hp : d.phase = .body)
    (hi : d.idx < d.len.toNat) (hc : d.idx < cfg.bufCap) :
    DecoderInv cfg { d with csum := d.csum + v, idx := d.idx + 1, buf := bufWrite d.buf d.idx v } := by
  obtain ⟨bytes, hlen, hstored, hsum⟩ := h.bodySum hp
  have hbound : ∀ c ∈ bufWrite d.buf d.idx v, c.1 < cfg.bufCap := fun c hmem =>
    (mem_bufWrite hmem).elim (fun heq => heq ▸ hc) (h.inBuffer c)
  refine ⟨bufWrite_wf d.idx v h.canonical, hbound, hc, h.escOnlyInFrame, fun hp' => absurd (hp.symm.trans hp') nofun,
    fun _ => hi, fun _ => ⟨bytes ++ [v], by simp [hlen], fun i hlt => ?_, by simp [hsum, BitVec.add_assoc]⟩⟩
  rcases Nat.lt_succ_iff_lt_or_eq.mp hlt with hlt | rfl
  · rw [bufLookup_bufWrite_other _ _ (Nat.ne_of_lt hlt), hstored i hlt, List.getElem?_append_left (hlen.symm ▸ hlt)]
  · rw [bufLookup_bufWrite_same, ← hlen, List.getElem?_concat_length]

theorem DecoderInv.place {cfg : Config} {d d' : Decoder} {v : Byte} {o : Outputs} (h : DecoderInv cfg d)
    (he : d.esc = false) (hplace : d.place cfg v = .ok (d', o)) : DecoderInv cfg d' := by
  rcases Decoder.place_cases hplace with
    ⟨_, rfl, _⟩ | ⟨hp, rfl, _⟩ | ⟨hp, hi, hc, rfl, _⟩ | ⟨_, _, _, rfl, _⟩ | ⟨_, _, hcheck⟩
  · exact h
  · exact h.takeLength v hp
  · exact h.store v hp hi hc
  · exact h.endFrame
  · rcases Decoder.check_cases hcheck with ⟨_, rfl, _⟩ | ⟨_, rfl, _⟩
    · rw [he]
      exact h.endFrame
    · exact h.endFrame

theorem DecoderInv.feed {cfg : Config} {d d' : Decoder} {b : Byte} {o : Outputs} (h : DecoderInv cfg d)
    (hfeed : d.feed cfg b = .ok (d', o)) : DecoderInv cfg d' := by
  rcases Decoder.feed_split cfg d b with
    ⟨_, hf⟩ | ⟨_, _, hf⟩ | ⟨_, hp, _, _, hf⟩ | ⟨_, _, _, hf⟩ | ⟨_, v, _, hf⟩
  · cases hf.symm.trans hfeed
    exact h.frameStart
  · cases hf.symm.trans hfeed
    exact h
  · cases hf.symm.trans hfeed
    exact h.setEsc hp
  · cases hf.symm.trans hfeed
    exact h.endFrame
  · exact h.clearEsc.place rfl (hf.symm.trans hfeed)

/-- The reset values of `S`, around a buffer that meets the invariant (rules R180 and R181). -/
theorem DecoderInv.reset {cfg : Config} {m : Memory} (hwf : Memory.wf m) (hm : ∀ c ∈ m, c.1 < cfg.bufCap) :
    DecoderInv cfg { Decoder.reset with buf := m } :=
  ⟨hwf, hm, Nat.zero_le _, fun _ => rfl, nofun, nofun, nofun⟩

/-! ### Operations and their runs -/

theorem DecoderInv.exec_operation {i : Instr} {s t : State} (h : DecoderInv s.cfg s.dec) (hi : isOperation i = true)
    (hrun : exec i s = .next t) : DecoderInv s.cfg t.dec := by
  cases i with
  | feed b =>
    obtain ⟨d, o, hf, rfl⟩ := State.feedByte_next hrun
    exact h.feed hf
  | reset =>
    cases (exec_reset s).symm.trans hrun
    exact .reset h.canonical h.inBuffer
  | encode | passthru =>
    cases hrun.symm.trans (exec_outbound rfl hrun s)
    exact h
  | inHeader | inEscPrefix | inEscSub | inEscEsc | inEscHeader | inEscBad | inLiteral | inUnsynced => cases hi
  | outUnitCtrl | outUnitPt | outUnitReserved => cases hi

theorem Inv.exec_operation {i : Instr} {s t : State} (h : Inv s) (hi : isOperation i = true) (hrun : exec i s = .next t) :
    Inv t := by
  obtain ⟨hcfg, hout⟩ := exec_next_out hrun
  exact ⟨hcfg ▸ h.decoder.exec_operation hi hrun,
    hcfg ▸ hout ▸ unitAligned_append h.outbound (unitAligned_emittedBy s.cfg hi)⟩

theorem Inv.execAll_operations {ops : List Instr} {s t : State} (h : Inv s) (hops : ops.all isOperation = true)
    (hrun : execAll ops s = .next t) : Inv t := by
  induction ops generalizing s with
  | nil =>
    cases hrun
    exact h
  | cons i ops ih =>
    rw [List.all_cons, Bool.and_eq_true] at hops
    obtain ⟨hi, hrest⟩ := hops
    simp only [execAll] at hrun
    split at hrun
    case h_1 u hu => exact ih (h.exec_operation hi hu) hrest hrun
    all_goals cases hrun

/-! ### The statements -/

/-- Settles O56: a step is idle or a run of operations (O55), and the invariant does not speak of the schedule. -/
theorem stepKeepsInvariant : Obligations.StepKeepsInvariant := by
  intro s t h hstep
  obtain ⟨⟨-, rfl⟩ | ⟨ops, hops, hrun⟩, -⟩ := stepOnlyAppends s t hstep
  · exact h
  · exact Inv.execAll_operations (s := { s with requests := t.requests }) ⟨h.decoder, h.outbound⟩ hops hrun

/-- Settles O57: nothing has been written or emitted, and no frame is in progress. -/
theorem resetHasInvariant : Obligations.ResetHasInvariant := ⟨.reset reset_buf_wf nofun, trivial⟩

end Sys2Proof.Machine

/-! ## What the earlier sections leave: reset values, `AwaitHeader`, the unit rows, the codes -/

namespace Sys2Proof.Machine

/-- Settles O29: two machines whose decoders are both in `AwaitHeader` agree on the frame in progress, since there is none. -/
theorem idleDecoderStateIsUnobservable : Obligations.IdleDecoderStateIsUnobservable := by
  intro s u ops hcfg hout hresults hs hu hops
  have hstart : Mirrors [] [] s u := ⟨hcfg, .of_awaitHeader hs hu, hout.symm, hresults.symm⟩
  obtain ⟨t, w, ht, hw, h⟩ := hstart.execAll_operations hops
  exact ⟨t, w, ht, hw, h.results.symm, h.out.symm, h.dec.phase⟩

/-- Settles O1: the reset values by evaluation; with nothing written, every entry reads as its free value. -/
theorem resetStateValues : Obligations.ResetStateValues :=
  ⟨rfl, rfl, rfl, rfl, rfl, rfl, fun _ hi => if_pos hi, rfl⟩

/-- Settles O2: `W_ENC_N` is 9 and something more, and the other parameters are numerals. -/
theorem defaultParameters : Obligations.DefaultParameters :=
  ⟨rfl, rfl, rfl, rfl, rfl, rfl, rfl, rfl, Nat.le_add_left 9 _, by decide⟩

/-- Rule R134: the frame of an ENCODE is a run of control units. -/
theorem execAll_map_outUnitCtrl (ws : List Byte) (s : State) :
    execAll (ws.map .outUnitCtrl) s = .next (muxCtrlAll ws s) := by
  induction ws generalizing s with
  | nil => rfl
  | cons w ws ih => exact ih (s.muxCtrl w)

/-- Settles O36: a unit row is the multiplexer's primitive, and ENCODE and PASSTHRU are made of the same primitives. -/
theorem unitRowsAppendOneUnit : Obligations.UnitRowsAppendOneUnit := by
  refine fun s w => ⟨?_, ?_, ⟨_, rfl, rfl⟩, fun c d p hp => ⟨_, execAll_map_outUnitCtrl _ s, if_neg (Nat.not_lt.mpr hp)⟩⟩
  · simpa [State.sent, emittedBy, answersOf] using exec_outbound (i := .outUnitCtrl w) (s := s) rfl rfl s
  · simpa [State.sent, emittedBy, answersOf] using exec_outbound (i := .outUnitPt w) (s := s) rfl rfl s

/-- Settles O37: the row has no other outcome. -/
theorem reservedUnitIsRefused : Obligations.ReservedUnitIsRefused := fun _ _ _ => rfl

theorem eventOfCode_eventCode (e : DecEvent) : eventOfCode (eventCode e) = some e := by cases e <;> rfl

/-- The code of an event is the only one that is read back as it. -/
theorem eventCode_of_eventOfCode {c : BitVec 3} {e : DecEvent} (h : eventOfCode c = some e) : eventCode e = c := by
  simp only [eventOfCode] at h
  split_ifs at h
  all_goals
    cases h
    exact Eq.symm ‹_›

/-- Settles O60: the two tables are inverse to each other, and code 7 is in neither. -/
theorem outputCodes : Obligations.OutputCodes :=
  ⟨eventOfCode_eventCode, rfl, fun _ _ => eventCode_of_eventOfCode, rfl, rfl, rfl, rfl, rfl, rfl, rfl, rfl, rfl, rfl, rfl, rfl⟩

end Sys2Proof.Machine
